-- ==== Sys2Proof/Word.lean ====
section
/-! DEFINITION. The one word of the CORE: registers, memory cells and instruction bytes are all 8 bits wide
(`00_scope.md` R7, `20_memory.md` R43). -/

namespace Sys2Proof

/-- A register, a memory cell or an instruction byte (`10_state.md` R21, R29). Bit 0 is the least significant
bit (`00_scope.md` R8); its unsigned reading is `BitVec.toNat`, the only reading there is (R9). -/
abbrev Byte := BitVec 8

end Sys2Proof
end

