-- ==== Sys2Proof/Config.lean ====
section
/-! DEFINITION. The parameters of `00_scope.md` R7 that the spec leaves OPEN, as plain data, with the spec's
defaults. A machine carries its parameters unchanged in `State.cfg` (log 1), so that every statement about
states holds for every admissible choice. -/

namespace Sys2Proof

/-- The closed set of 13 instructions (`00_scope.md` R2); it names the parameters `OPCODE_<mnemonic>`. -/
inductive Mnemonic where
  | hlt | ret | prn | push | pop | call | jmp | jeq | jne | ldi | add | mul | cmp
  deriving DecidableEq, Repr

/-- The whole set, in the order of `30_encoding.md` R62. -/
def Mnemonic.all : List Mnemonic :=
  [.hlt, .ret, .prn, .push, .pop, .call, .jmp, .jeq, .jne, .ldi, .add, .mul, .cmp]

/-- The operand count the source gives each instruction (`30_encoding.md` R62, R63). -/
def Mnemonic.operandCount : Mnemonic → Nat
  | .hlt => 0
  | .ret => 0
  | .prn => 1
  | .push => 1
  | .pop => 1
  | .call => 1
  | .jmp => 1
  | .jeq => 1
  | .jne => 1
  | .ldi => 2
  | .add => 2
  | .mul => 2
  | .cmp => 2

/-- The 13 parameters `OPCODE_<mnemonic>` (`30_encoding.md` R62, D7). -/
structure OpcodeMap where
  hlt  : Byte
  ret  : Byte
  prn  : Byte
  push : Byte
  pop  : Byte
  call : Byte
  jmp  : Byte
  jeq  : Byte
  jne  : Byte
  ldi  : Byte
  add  : Byte
  mul  : Byte
  cmp  : Byte
  deriving DecidableEq, Repr

/-- `OPCODE_x`. -/
def OpcodeMap.byte (m : OpcodeMap) : Mnemonic → Byte
  | .hlt => m.hlt
  | .ret => m.ret
  | .prn => m.prn
  | .push => m.push
  | .pop => m.pop
  | .call => m.call
  | .jmp => m.jmp
  | .jeq => m.jeq
  | .jne => m.jne
  | .ldi => m.ldi
  | .add => m.add
  | .mul => m.mul
  | .cmp => m.cmp

/-- The default values of `30_encoding.md` R62. PRESUMED by the spec itself: they are the LS-8 teaching ISA's
values, from general knowledge (log 5). -/
def OpcodeMap.default : OpcodeMap :=
  { hlt := 0x01#8, ret := 0x11#8, prn := 0x47#8, push := 0x45#8, pop := 0x46#8, call := 0x50#8, jmp := 0x54#8,
    jeq := 0x55#8, jne := 0x56#8, ldi := 0x82#8, add := 0xA0#8, mul := 0xA2#8, cmp := 0xA7#8 }

/-- The two constraints of `30_encoding.md` R63: (1) the 13 values are pairwise distinct; (2) the top two bits
of each (the value divided by 64) are the operand count the source gives. -/
abbrev OpcodeMap.wf (m : OpcodeMap) : Prop :=
  (Mnemonic.all.map m.byte).Nodup ∧ ∀ x ∈ Mnemonic.all, (m.byte x).toNat / 64 = x.operandCount

/-- The parameter `OOB_POLICY` (`00_scope.md` R7, D9): what an address outside [0, N) does. -/
inductive OobPolicy where
  | fault
  | wrap
  deriving DecidableEq, Repr

/-- The OPEN parameters of `00_scope.md` R7, fixed for one machine. -/
structure Config where
  /-- `MEM_SIZE`, the number N of cells (D2). -/
  memSize : Nat
  /-- `SP_INIT`, the reset value of r7 (D4). -/
  spInit : Byte
  /-- `OOB_POLICY` (D9). -/
  oob : OobPolicy
  /-- `OPCODE_<mnemonic>` (D7). -/
  opcodes : OpcodeMap
  deriving DecidableEq, Repr

/-- Every parameter at the default of `00_scope.md` R7: N = 256, SP_INIT = N−1, `fault`, the opcode values of
`30_encoding.md` R62. -/
def Config.default : Config :=
  { memSize := 256, spInit := 0xFF#8, oob := .fault, opcodes := OpcodeMap.default }

/-- What the spec admits: 1 ≤ N ≤ 256 (R7) and the constraints of `30_encoding.md` R63. SP_INIT may be any
8-bit value (log 6). -/
abbrev Config.wf (c : Config) : Prop :=
  1 ≤ c.memSize ∧ c.memSize ≤ 256 ∧ c.opcodes.wf

end Sys2Proof
end

