-- ==== Sys2Proof/Machine/State.lean ====
section
/-! DEFINITION. The state of the CORE as plain data (`10_state.md` R20), the reasons a step can stop, and the
state after reset (R35). -/

namespace Sys2Proof.Machine

/-- The fatal conditions of `60_exceptions.md` R151 to R153, each with what the spec has recorded: the pc of
the faulting instruction's opcode byte, and the cause's own value. -/
inductive Fault where
  /-- Raised by decode for a byte that is none of the 13 opcode values (R151). Safe: the source itself calls
  it fatal. -/
  | illegalOpcode (pc : Nat) (ir : Byte)
  /-- Raised by `Reg(b)` for a register operand byte of 8 or more (R152). Safe: the spec's own decision D10,
  which errs toward unprovable (log 8). -/
  | regOutOfRange (pc : Nat) (b : Byte)
  /-- Raised by `Addr` and `SPNew` under `OOB_POLICY = fault` only, for an address or new SP outside [0, N)
  (R153). Safe: the spec's own decision D9, which errs toward unprovable (log 7). -/
  | memOutOfBounds (pc : Nat) (a : Int)
  deriving DecidableEq, Repr

/-- What the model refuses; no instruction's meaning answers with any of these. -/
inductive Refusal where
  /-- An instruction that has no meaning yet; no arm of `exec` uses it. Safe. -/
  | notModelled (mnemonic : String)
  /-- A launch with an image of `length` bytes for a memory of `cells` cells, raised by `State.preload`: the
  CORE is not started (`70_reset_and_hazards.md` R183, D21). Safe. -/
  | imageTooLong (length cells : Nat)
  deriving DecidableEq, Repr

/-- Whether the loop runs (`10_state.md` R31). -/
inductive Status where
  | running
  | halted
  | faulted (cause : Fault)
  deriving DecidableEq, Repr

/-- The three condition flags as three booleans, which `10_state.md` R27 allows: Equal, Less, Greater (R26). -/
structure Flags where
  e : Bool
  l : Bool
  g : Bool
  deriving DecidableEq, Repr

/-- Memory as (address, byte) pairs, addresses strictly rising, no pair with byte 0; an unlisted address reads
0, the reset contents of `70_reset_and_hazards.md` R181. The form is `Memory.wf`. -/
abbrev Memory := List Host.Cell

/-- The complete state of the CORE (`10_state.md` R20), with the parameters it was built with. -/
structure State where
  /-- the OPEN parameters of `00_scope.md` R7; nothing writes them (log 1) -/
  cfg : Config
  /-- `mem[0..N-1]` (R29) -/
  mem : Memory
  /-- `R[0]` to `R[7]` (R21); `R[7]` is the stack pointer (R22) -/
  regs : Vector Byte 8
  /-- the address of the next instruction (R25; log 4) -/
  pc : Nat
  /-- FL (R26) -/
  fl : Flags
  /-- IR, the opcode byte of the cycle, internal (R30) -/
  ir : Byte
  /-- whether the loop runs (R31) -/
  status : Status
  /-- the values PRN sent, oldest first (R32) -/
  out : List Byte
  deriving DecidableEq, Repr

/-- The started state after a reset, before any image is loaded (`10_state.md` R35,
`70_reset_and_hazards.md` R180), for any parameters and any draw of r0 to r6 (R182). IR's value is irrelevant
(R35); it is 0 here (log 3). -/
def State.resetWith (cfg : Config) (draws : Vector Byte 7) : State :=
  { cfg := cfg, mem := [], regs := draws.push cfg.spInit, pc := 0, fl := ⟨false, false, false⟩, ir := 0#8,
    status := .running, out := [] }

/-- The reset state of the default machine, with 0 drawn for r0 to r6. DESIGN CHOICE, unsafe: the spec gives
r0 to r6 no value (log 2). -/
def State.reset : State := State.resetWith Config.default (Vector.replicate 7 0#8)

end Sys2Proof.Machine
end

