-- ==== Sys2Proof/Machine/Flags.lean ====
section
/-! DEFINITION. The one flag computation of the CORE, CMP's (`42_alu.md` R113), and FL's 3-bit layout
(`10_state.md` R27), which no instruction observes. -/

namespace Sys2Proof.Machine

/-- CMP's rule: all three cleared, then exactly one set, by unsigned comparison (`42_alu.md` R113, D14). -/
def compareFlags (x y : Byte) : Flags :=
  if x.toNat = y.toNat then ⟨true, false, false⟩
  else if x.toNat < y.toNat then ⟨false, true, false⟩
  else ⟨false, false, true⟩

/-- FL as a 3-bit register: bit 0 = E, bit 1 = G, bit 2 = L (`10_state.md` R27, D8; log 14). -/
def Flags.word (f : Flags) : BitVec 3 :=
  BitVec.ofBool f.l ++ BitVec.ofBool f.g ++ BitVec.ofBool f.e

/-- How many of E, L and G are 1. -/
def Flags.count (f : Flags) : Nat := f.e.toNat + f.l.toNat + f.g.toNat

end Sys2Proof.Machine
end

