-- ==== Sys2Proof/Machine/Ops.lean ====
section
/-! DEFINITION. The named operations over registers, memory, pc, output and status that every meaning is
written in: the primitives of `00_scope.md` R10. A check that can raise answers `Result`, and the meaning's
writes are kept only if no line raises (`60_exceptions.md` R158). -/

namespace Sys2Proof.Machine

/-- The outcome of one step or one meaning. -/
abbrev Outcome := Host.Outcome State Fault Refusal

/-- A value, or the fault that a `raise` ends the instruction with (`00_scope.md` R10). -/
abbrev Result (α : Type) := Except Fault α

/-- An instruction read as a transaction (`60_exceptions.md` R158): the written state if no line raised,
otherwise the fault, which the step returns as its result (R157). -/
def complete (r : Result State) : Outcome :=
  match r with
  | .ok s => .next s
  | .error f => .fault f

/-! ### Memory cells -/

/-- The cell at an address; an unlisted address reads 0 (`70_reset_and_hazards.md` R181). -/
def Memory.read : Memory → Nat → Byte
  | [], _ => 0#8
  | (b, v) :: m, a => if a = b then v else Memory.read m a

/-- List the cell `(a, v)` before a tail of higher addresses, unless it reads as an unlisted one. -/
def Memory.cons (a : Nat) (v : Byte) (m : Memory) : Memory :=
  if v = 0#8 then m else (a, v) :: m

/-- Set the cell at an address, keeping the canonical form. -/
def Memory.write : Memory → Nat → Byte → Memory
  | [], a, v => Memory.cons a v []
  | (b, w) :: m, a, v =>
    if a < b then Memory.cons a v ((b, w) :: m)
    else if a = b then Memory.cons a v m
    else (b, w) :: Memory.write m a v

/-- The canonical form: addresses strictly rising, and no listed cell reads as an unlisted one. -/
abbrev Memory.wf (m : Memory) : Prop :=
  m.Pairwise (fun x y => x.1 < y.1) ∧ ∀ c ∈ m, c.2 ≠ 0#8

/-- Set the cells from address `a` on to the bytes of a list, in order. -/
def Memory.writeList (m : Memory) (a : Nat) : List Byte → Memory
  | [] => m
  | v :: vs => Memory.writeList (m.write a v) (a + 1) vs

/-! ### Registers -/

/-- `R[i]` (`00_scope.md` R10). No register is hardwired (`10_state.md` R21). -/
def State.readReg (s : State) (i : Fin 8) : Byte := s.regs[i]

/-- `R[i] <- v` (`00_scope.md` R10). -/
def State.writeReg (s : State) (i : Fin 8) (v : Byte) : State :=
  { s with regs := s.regs.set i v }

/-- `SP` is another name for `R[7]` (`10_state.md` R22). -/
def State.sp (s : State) : Byte := s.readReg 7

/-- `R[7] <- v`. -/
def State.setSp (s : State) (v : Byte) : State := s.writeReg 7 v

/-! ### Faults -/

/-- FAULT ENTRY (`60_exceptions.md` R157): the status becomes FAULTED(cause) and nothing else is written. The
CORE has no trap, handler or saved state (R150), and no return from a fault (R162). -/
def State.enterFault (s : State) (f : Fault) : State := { s with status := .faulted f }

/-- The recorded pc: the address of the faulting instruction's opcode byte (`60_exceptions.md` R151 to R153). -/
def Fault.pc : Fault → Nat
  | .illegalOpcode p _ => p
  | .memOutOfBounds p _ => p
  | .regOutOfRange p _ => p

/-- The status code of a fault (`60_exceptions.md` R156). Codes 3 and 4 are the spec's own (D16). -/
def Fault.code : Fault → Nat
  | .illegalOpcode _ _ => 1
  | .memOutOfBounds _ _ => 3
  | .regOutOfRange _ _ => 4

/-- The status code reported to the host when the CORE stops; none while RUNNING (`60_exceptions.md` R156). -/
def Status.code : Status → Option Nat
  | .running => none
  | .halted => some 0
  | .faulted f => some f.code

/-! ### Addresses and memory access -/

/-- `Addr(a)` (`20_memory.md` R45). -/
def checkAddr (s : State) (a : Int) : Result Nat :=
  match s.cfg.oob with
  | .fault => if 0 ≤ a ∧ a < s.cfg.memSize then .ok a.toNat else .error (.memOutOfBounds s.pc a)
  | .wrap => .ok (a % s.cfg.memSize).toNat

/-- `MemRead(a, 1)` (`20_memory.md` R43). -/
def memRead (s : State) (a : Int) : Result Byte := do
  let k ← checkAddr s a
  return s.mem.read k

/-- Set one cell that `Addr` has admitted. -/
def State.storeCell (s : State) (k : Nat) (v : Byte) : State := { s with mem := s.mem.write k v }

/-- `MemWrite(a, 1, v)` (`20_memory.md` R43). -/
def memWrite (s : State) (a : Int) (v : Byte) : Result State := do
  let k ← checkAddr s a
  return s.storeCell k v

/-- `SPNew(v)` (`43_stack.md` R121). -/
def spNew (s : State) (v : Int) : Result Byte :=
  match s.cfg.oob with
  | .fault => if 0 ≤ v ∧ v < s.cfg.memSize then .ok (BitVec.ofInt 8 v) else .error (.memOutOfBounds s.pc v)
  | .wrap => .ok (BitVec.ofInt 8 (v % 256))

/-- `R[7] <- SPNew(R[7] - 1)`: the decrement that a push begins with (`43_stack.md` R120, R122). -/
def decrementSp (s : State) : Result State := do
  let v ← spNew s ((s.sp.toNat : Int) - 1)
  return s.setSp v

/-- `R[7] <- SPNew(R[7] + 1)`: the increment that a pop ends with (`43_stack.md` R120, R123). -/
def incrementSp (s : State) : Result State := do
  let v ← spNew s ((s.sp.toNat : Int) + 1)
  return s.setSp v

/-! ### Program counter, flags, output, halt -/

/-- The value a pc update stores: the target as is under `fault`, the target mod N under `wrap`
(`10_state.md` R25, `44_control.md` R130). -/
def State.pcValue (s : State) (t : Nat) : Nat :=
  match s.cfg.oob with
  | .fault => t
  | .wrap => t % s.cfg.memSize

/-- `pc <- t`. -/
def State.jump (s : State) (t : Nat) : State := { s with pc := s.pcValue t }

/-- The default advance `pc <- pc + 1 + count` for an instruction of mnemonic `x` (`40_dispatch.md` R85). -/
def State.advance (s : State) (x : Mnemonic) : State := s.jump (s.pc + 1 + x.operandCount)

/-- `FL <- f`. -/
def State.setFlags (s : State) (f : Flags) : State := { s with fl := f }

/-- `emit(v)`: append v to the output; it never blocks and cannot fail (`41_data.md` R102; log 13). -/
def State.emit (s : State) (v : Byte) : State := { s with out := s.out ++ [v] }

/-- `halt`: enter HALTED (`44_control.md` R141). -/
def State.halt (s : State) : State := { s with status := .halted }

/-- `IR <- b` (`10_state.md` R30). -/
def State.loadIr (s : State) (b : Byte) : State := { s with ir := b }

end Sys2Proof.Machine
end

