-- ==== Sys2Proof/Machine/Operands.lean ====
section
/-! DEFINITION. The operand forms: a register operand byte, checked by `Reg` (`30_encoding.md` R66). The other
form, LDI's immediate, is its byte unchanged and needs no operation. -/

namespace Sys2Proof.Machine

/-- `Reg(b)` (`10_state.md` R24): the register a byte names, or RegOutOfRange. The check does not depend on
`OOB_POLICY`. -/
def checkReg (s : State) (b : Byte) : Result (Fin 8) :=
  if h : b.toNat < 8 then .ok ⟨b.toNat, h⟩ else .error (.regOutOfRange s.pc b)

end Sys2Proof.Machine
end

