-- ==== Sys2Proof/Machine/Alu.lean ====
section
/-! DEFINITION. The ALU and its three instructions (`42_alu.md`): ADD, MUL, CMP. -/

namespace Sys2Proof.Machine

/-- The ALU's closed set of operations (`40_dispatch.md` R89); no other can be asked of it. -/
inductive AluOp where
  | add
  | mul
  | cmp
  deriving DecidableEq, Repr

/-- What the ALU answers: a register value (ADD, MUL) or the flags (CMP). No operation gives both
(`42_alu.md` R110). -/
inductive AluResult where
  | value (v : Byte)
  | flags (f : Flags)
  deriving DecidableEq, Repr

/-- The ALU: the exact unsigned result mod 256, or the comparison (`42_alu.md` R110 to R113). -/
def alu (op : AluOp) (x y : Byte) : AluResult :=
  match op with
  | .add => .value (BitVec.ofNat 8 (x.toNat + y.toNat))
  | .mul => .value (BitVec.ofNat 8 (x.toNat * y.toNat))
  | .cmp => .flags (compareFlags x y)

/-- Where an ALU result goes: a value to the first operand's register, flags to FL. -/
def State.putAlu (s : State) (dst : Fin 8) : AluResult → State
  | .value v => s.writeReg dst v
  | .flags f => s.setFlags f

/-- The effect the three share, before the default advance: op1 is checked before op2
(`60_exceptions.md` R160), and both registers are read before any write (`42_alu.md` R111). -/
def aluEffect (op : AluOp) (a b : Byte) (s : State) : Result State := do
  let ia ← checkReg s a
  let ib ← checkReg s b
  return s.putAlu ia (alu op (s.readReg ia) (s.readReg ib))

/-- ADD a, b (`42_alu.md` R111). -/
def execAdd (a b : Byte) (s : State) : Outcome :=
  complete do
    let t ← aluEffect .add a b s
    return t.advance .add

/-- MUL a, b (`42_alu.md` R112). -/
def execMul (a b : Byte) (s : State) : Outcome :=
  complete do
    let t ← aluEffect .mul a b s
    return t.advance .mul

/-- CMP a, b (`42_alu.md` R113). -/
def execCmp (a b : Byte) (s : State) : Outcome :=
  complete do
    let t ← aluEffect .cmp a b s
    return t.advance .cmp

end Sys2Proof.Machine
end

