-- ==== Sys2Proof/Machine/Control.lean ====
section
/-! DEFINITION. Control transfer and halt (`44_control.md`): CALL, RET, JMP, JEQ, JNE, HLT. None of these gets
the dispatcher's default advance (`40_dispatch.md` R86). -/

namespace Sys2Proof.Machine

/-- CALL r (`44_control.md` R131): the return address pc + 2 is checked, then pushed; the target is read after
the push (D11; log 9). -/
def execCall (r : Byte) (s : State) : Outcome :=
  complete do
    let ir ← checkReg s r
    let ret ← checkAddr s ((s.pc : Int) + 2)
    let s1 ← decrementSp s
    let s2 ← memWrite s1 s1.sp.toNat (BitVec.ofNat 8 ret)
    return s2.jump (s2.readReg ir).toNat

/-- RET (`44_control.md` R133): read at SP, increment SP, go to the byte read. -/
def execRet (s : State) : Outcome :=
  complete do
    let t ← memRead s s.sp.toNat
    let s1 ← incrementSp s
    return s1.jump t.toNat

/-- JMP r (`44_control.md` R134). -/
def execJmp (r : Byte) (s : State) : Outcome :=
  complete do
    let ir ← checkReg s r
    return s.jump (s.readReg ir).toNat

/-- A conditional jump: the register is checked whether or not the jump is taken (D10), and one that is not
taken advances by 2, once (`44_control.md` R136, R137; `40_dispatch.md` R86). -/
def jumpIf (taken : Bool) (r : Byte) (s : State) : Result State := do
  let ir ← checkReg s r
  return if taken then s.jump (s.readReg ir).toNat else s.jump (s.pc + 2)

/-- JEQ r (`44_control.md` R136). -/
def execJeq (r : Byte) (s : State) : Outcome := complete (jumpIf s.fl.e r s)

/-- JNE r (`44_control.md` R137). -/
def execJne (r : Byte) (s : State) : Outcome := complete (jumpIf (!s.fl.e) r s)

/-- HLT (`44_control.md` R141): HALTED, with pc left at the HLT byte (D15). -/
def execHlt (s : State) : Outcome := .next s.halt

end Sys2Proof.Machine
end

