-- ==== Sys2Proof/Machine/Data.lean ====
section
/-! DEFINITION. Register load and output (`41_data.md`): LDI, PRN. -/

namespace Sys2Proof.Machine

/-- LDI r, i (`41_data.md` R100). -/
def execLdi (r i : Byte) (s : State) : Outcome :=
  complete do
    let ir ← checkReg s r
    return (s.writeReg ir i).advance .ldi

/-- PRN r (`41_data.md` R101). -/
def execPrn (r : Byte) (s : State) : Outcome :=
  complete do
    let ir ← checkReg s r
    return (s.emit (s.readReg ir)).advance .prn

end Sys2Proof.Machine
end

