-- ==== Sys2Proof/Machine/Stack.lean ====
section
/-! DEFINITION. The stack instructions (`43_stack.md`): PUSH, POP. Their lines run in the spec's order, so that
naming r7 as the operand does what D11 says (log 9). -/

namespace Sys2Proof.Machine

/-- PUSH r (`43_stack.md` R122): decrement SP, then store R[r], read after the decrement. -/
def execPush (r : Byte) (s : State) : Outcome :=
  complete do
    let ir ← checkReg s r
    let s1 ← decrementSp s
    let s2 ← memWrite s1 s1.sp.toNat (s1.readReg ir)
    return s2.advance .push

/-- POP r (`43_stack.md` R123): load R[r] from mem[SP], then increment the possibly just written r7. -/
def execPop (r : Byte) (s : State) : Outcome :=
  complete do
    let ir ← checkReg s r
    let v ← memRead s s.sp.toNat
    let s1 ← incrementSp (s.writeReg ir v)
    return s1.advance .pop

end Sys2Proof.Machine
end

