-- ==== Sys2Proof/Syntax.lean ====
section
/-! DEFINITION. The instructions as syntax: one constructor per row of `spec/opcode_table.json`, in its order.
An operand is the whole operand byte (`30_encoding.md` R65, R66): a register operand may be any of 0 to 255,
and 8 to 255 are legal encodings that fault when executed (R69). -/

namespace Sys2Proof

/-- The 13 instructions of `30_encoding.md` R65 with their operand bytes. -/
inductive Instr where
  /-- halt (`44_control.md` R141), format F0 -/
  | hlt
  /-- return from subroutine (`44_control.md` R133), format F0 -/
  | ret
  /-- print register r (`41_data.md` R101), format FR -/
  | prn (r : Byte)
  /-- push register r (`43_stack.md` R122), format FR -/
  | push (r : Byte)
  /-- pop into register r (`43_stack.md` R123), format FR -/
  | pop (r : Byte)
  /-- call the subroutine at R[r] (`44_control.md` R131), format FR -/
  | call (r : Byte)
  /-- jump to R[r] (`44_control.md` R134), format FR -/
  | jmp (r : Byte)
  /-- jump to R[r] if E = 1 (`44_control.md` R136), format FR -/
  | jeq (r : Byte)
  /-- jump to R[r] if E = 0 (`44_control.md` R137), format FR -/
  | jne (r : Byte)
  /-- load the immediate i into register r (`41_data.md` R100), format FRI -/
  | ldi (r i : Byte)
  /-- add register b to register a (`42_alu.md` R111), format FRR -/
  | add (a b : Byte)
  /-- multiply register a by register b (`42_alu.md` R112), format FRR -/
  | mul (a b : Byte)
  /-- compare registers a and b (`42_alu.md` R113), format FRR -/
  | cmp (a b : Byte)
  deriving DecidableEq, Repr

/-- Which of the 13 an instruction is. -/
def Instr.mnemonic : Instr → Mnemonic
  | .hlt => .hlt
  | .ret => .ret
  | .prn _ => .prn
  | .push _ => .push
  | .pop _ => .pop
  | .call _ => .call
  | .jmp _ => .jmp
  | .jeq _ => .jeq
  | .jne _ => .jne
  | .ldi _ _ => .ldi
  | .add _ _ => .add
  | .mul _ _ => .mul
  | .cmp _ _ => .cmp

/-- The operand bytes at pc+1 and pc+2, in order (`30_encoding.md` R65). -/
def Instr.operands : Instr → List Byte
  | .hlt => []
  | .ret => []
  | .prn r => [r]
  | .push r => [r]
  | .pop r => [r]
  | .call r => [r]
  | .jmp r => [r]
  | .jeq r => [r]
  | .jne r => [r]
  | .ldi r i => [r, i]
  | .add a b => [a, b]
  | .mul a b => [a, b]
  | .cmp a b => [a, b]

/-- The operand bytes that are register indices: all but LDI's immediate (`30_encoding.md` R66). -/
def Instr.registerOperands : Instr → List Byte
  | .hlt => []
  | .ret => []
  | .prn r => [r]
  | .push r => [r]
  | .pop r => [r]
  | .call r => [r]
  | .jmp r => [r]
  | .jeq r => [r]
  | .jne r => [r]
  | .ldi r _ => [r]
  | .add a b => [a, b]
  | .mul a b => [a, b]
  | .cmp a b => [a, b]

/-- The bytes an instruction occupies: `1 + operand_count` (`30_encoding.md` R60). -/
def Instr.length (i : Instr) : Nat := 1 + i.mnemonic.operandCount

end Sys2Proof
end

