-- ==== Sys2Proof/WellFormed.lean ====
section
/-! DEFINITION. Which instructions name only registers that exist. An instruction that does not is still a
legal encoding (`30_encoding.md` R69): it decodes, and executing it raises RegOutOfRange (`10_state.md` R24). -/

namespace Sys2Proof

/-- A register operand byte names one of r0 to r7 (`10_state.md` R24). -/
abbrev registerExists (b : Byte) : Prop := b.toNat < 8

/-- Every register operand names a register that exists. LDI's immediate is never checked
(`10_state.md` R24, `60_exceptions.md` R160). -/
def Instr.wf : Instr → Bool
  | .hlt => true
  | .ret => true
  | .prn r => decide (registerExists r)
  | .push r => decide (registerExists r)
  | .pop r => decide (registerExists r)
  | .call r => decide (registerExists r)
  | .jmp r => decide (registerExists r)
  | .jeq r => decide (registerExists r)
  | .jne r => decide (registerExists r)
  | .ldi r _ => decide (registerExists r)
  | .add a b => decide (registerExists a) && decide (registerExists b)
  | .mul a b => decide (registerExists a) && decide (registerExists b)
  | .cmp a b => decide (registerExists a) && decide (registerExists b)

end Sys2Proof
end

