-- ==== Sys2Proof/Decode.lean ====
section
/-! DEFINITION. The decoder of `30_encoding.md` and `40_dispatch.md` R82 to R84, total on any bytes, and after
it the encoder. There is ONE decoder, `decodeFrom`, over a source of bytes: `decode` runs it on a list, and the
machine's fetch (`Sys2Proof.Machine.fetch`) runs it on memory at the pc. -/

namespace Sys2Proof

/-- `count = IR[7:6]` (`40_dispatch.md` R83). -/
def operandCount (ir : Byte) : Nat := (ir.extractLsb 7 6).toNat

/-- The dispatcher's comparison of IR with the 13 opcode values (`40_dispatch.md` R82): the whole byte is
compared (`30_encoding.md` R61), and the byte's top two bits must be the instruction's operand count, which
R63 makes automatic (log 15). -/
def mnemonicOf (m : OpcodeMap) (ir : Byte) : Option Mnemonic :=
  Mnemonic.all.find? (fun x => decide (m.byte x = ir ∧ operandCount ir = x.operandCount))

/-- The instruction of mnemonic `x` with operand bytes `op1`, `op2` (formats of `30_encoding.md` R65); an
operand byte that the format does not have is ignored. -/
def assemble (x : Mnemonic) (op1 op2 : Byte) : Instr :=
  match x with
  | .hlt => .hlt
  | .ret => .ret
  | .prn => .prn op1
  | .push => .push op1
  | .pop => .pop op1
  | .call => .call op1
  | .jmp => .jmp op1
  | .jeq => .jeq op1
  | .jne => .jne op1
  | .ldi => .ldi op1 op2
  | .add => .add op1 op2
  | .mul => .mul op1 op2
  | .cmp => .cmp op1 op2

/-- Operand byte k is read only when the count asks for it (`40_dispatch.md` R84). The byte given for an
operand that is not there is never used: see `assemble`. -/
def operandByte {ε : Type} (read : Nat → Except ε Byte) (count k : Nat) : Except ε Byte :=
  if k ≤ count then read k else .ok 0#8

/-- Fetch, decode and operand fetch in the order of `40_dispatch.md` R88 and `60_exceptions.md` R159, over a
source of bytes: `read k` is the byte k places after the opcode, `illegal` names the error for a byte that is
no opcode. Answers IR and the instruction. -/
def decodeFrom {ε : Type} (m : OpcodeMap) (illegal : Byte → ε) (read : Nat → Except ε Byte) :
    Except ε (Byte × Instr) := do
  let ir ← read 0
  match mnemonicOf m ir with
  | none => .error (illegal ir)
  | some x =>
    let op1 ← operandByte read (operandCount ir) 1
    let op2 ← operandByte read (operandCount ir) 2
    return (ir, assemble x op1 op2)

/-- Why a byte list is no instruction. -/
inductive DecodeError where
  /-- The byte is none of the 13 opcode values (`30_encoding.md` R68). -/
  | illegalOpcode (ir : Byte)
  /-- The list ends before byte `k` of the instruction, counting its opcode as byte 0. -/
  | truncated (k : Nat)
  deriving DecidableEq, Repr

/-- Byte k of a list, or the name of what is missing. -/
def listByte (bs : List Byte) (k : Nat) : Except DecodeError Byte :=
  match bs[k]? with
  | some b => .ok b
  | none => .error (.truncated k)

/-- Decode one instruction from the front of a byte list; answers it and the bytes after it. -/
def decode (m : OpcodeMap) (bs : List Byte) : Except DecodeError (Instr × List Byte) := do
  let (_, i) ← decodeFrom m .illegalOpcode (listByte bs)
  return (i, bs.drop i.length)

/-- The bytes of an instruction at ascending addresses: the opcode, then its operand bytes
(`30_encoding.md` R60, R65; `20_memory.md` R46). -/
def encode (m : OpcodeMap) (i : Instr) : List Byte :=
  m.byte i.mnemonic :: i.operands

/-- The three bytes of a table word: bit 0 of `w` is bit 0 of the opcode byte, a later byte's bits count on
from it, and every bit from `nbits` up is 0. -/
def tableBytes (nbits w : Nat) : List Byte :=
  let v := w % 2 ^ nbits
  [BitVec.ofNat 8 v, BitVec.ofNat 8 (v / 256), BitVec.ofNat 8 (v / 65536)]

/-- What the decoder reads from a table word, with the default opcode values the table shows. -/
def decodeTableWord (nbits w : Nat) : Option Instr :=
  match decode OpcodeMap.default (tableBytes nbits w) with
  | .ok (i, _) => some i
  | .error _ => none

end Sys2Proof
end

