-- ==== Sys2Proof/Machine/Fetch.lean ====
section
/-! DEFINITION. Fetch, decode and operand fetch at the pc (`40_dispatch.md` R81 to R84), and placing an
instruction's bytes there. -/

namespace Sys2Proof.Machine

/-- The fetch half of a cycle (`40_dispatch.md` R88): the opcode byte at pc, decode, then the operand bytes at
pc+1 and pc+2, each read through `Addr`; a failing check raises in the order of `60_exceptions.md` R159. It is
a pure read (R84). Answers IR and the instruction. -/
def fetch (s : State) : Result (Byte × Instr) :=
  decodeFrom s.cfg.opcodes (.illegalOpcode s.pc) (fun k => memRead s ((s.pc : Int) + k))

/-- Set the cell an address names, if `Addr` admits the address; otherwise nothing. -/
def plantByte (s : State) (a : Int) (v : Byte) : State :=
  match checkAddr s a with
  | .ok k => s.storeCell k v
  | .error _ => s

/-- Set the cells at pc, pc+1, … to the bytes of a list, and the status to RUNNING, so that the next cycle
fetches them (log 12). -/
def plantAtPc (s : State) (bs : List Byte) : State :=
  let t := bs.zipIdx.foldl (fun t p => plantByte t ((s.pc : Int) + p.2) p.1) s
  { t with status := .running }

end Sys2Proof.Machine
end

