-- ==== Sys2Proof/Machine/Step.lean ====
section
/-! DEFINITION. One cycle (`40_dispatch.md` R80, R88), the state a cycle leaves, and the runs made of cycles. -/

namespace Sys2Proof.Machine

/-- One cycle of the CORE. RUNNING: fetch, decode, operand fetch, IR loaded, the instruction executed (R88).
HALTED: no cycle happens and no state changes (`10_state.md` R31), said as the same state again (log 10).
FAULTED: no cycle happens, and the fault that stopped the CORE is the result again (log 11). -/
def step (s : State) : Host.Outcome State Fault Refusal :=
  match s.status with
  | .running =>
    match fetch s with
    | .ok (ir, i) => exec i (s.loadIr ir)
    | .error f => .fault f
  | .halted => .next s
  | .faulted f => .fault f

/-- The state after one cycle: the next state, or the FAULTED state that fault entry leaves
(`60_exceptions.md` R157, R158). No step refuses. -/
def cycle (s : State) : State :=
  match step s with
  | .next t => t
  | .fault f => s.enterFault f
  | .refused _ => s

/-- The state after `fuel` cycles. A run that spends its fuel while still RUNNING has not ended
(`70_reset_and_hazards.md` R189): its status says so. -/
def cycles : Nat → State → State
  | 0, s => s
  | fuel + 1, s => cycles fuel (cycle s)

/-- `s` with a table word's instruction stored where the next cycle fetches. It stands for the host's load of a
program (log 12). -/
def State.withFetchWord (s : State) (nbits w : Nat) : State :=
  plantAtPc s (tableBytes nbits w)

end Sys2Proof.Machine
end

