-- ==== Sys2Proof/Machine/Launch.lean ====
section
/-! DEFINITION. What the host may do to the CORE outside a run (`60_exceptions.md` R170): reset, and preload
before start. -/

namespace Sys2Proof.Machine

/-- The host's reset (`70_reset_and_hazards.md` R180, R184): nothing of the old state survives but the
machine's parameters; r0 to r6 are drawn anew. -/
def State.hostReset (s : State) (draws : Vector Byte 7) : State := State.resetWith s.cfg draws

/-- The host's preload (`70_reset_and_hazards.md` R183): the image's bytes at addresses 0, 1, …; an image longer
than memory is refused (D21). -/
def State.preload (s : State) (image : List Byte) : Except Refusal State :=
  if image.length ≤ s.cfg.memSize then .ok { s with mem := s.mem.writeList 0 image }
  else .error (.imageTooLong image.length s.cfg.memSize)

/-- Reset, preload, start (`70_reset_and_hazards.md` R180): the state from which the first cycle runs. -/
def launch (cfg : Config) (draws : Vector Byte 7) (image : List Byte) : Except Refusal State :=
  (State.resetWith cfg draws).preload image

end Sys2Proof.Machine
end

