-- ==== Sys2Proof/Safety.lean ====
section
/-! DEFINITION. What every reachable state satisfies, and what a safe run is, in the terms the claims use. -/

namespace Sys2Proof.Machine

/-- The values the pc can take (`10_state.md` R25 with `44_control.md` R130; log 4). Under `wrap`, [0, N−1].
Under `fault`, a default advance gives at most N, and a jump target or return address is one byte. -/
abbrev State.pcInRange (s : State) : Prop :=
  match s.cfg.oob with
  | .fault => s.pc ≤ s.cfg.memSize ∨ s.pc < 256
  | .wrap => s.pc < s.cfg.memSize

/-- What holds of every state a run can reach. -/
structure State.Inv (s : State) : Prop where
  /-- the parameters are admissible (`00_scope.md` R7, `30_encoding.md` R63) -/
  cfg_wf : s.cfg.wf
  /-- memory keeps its canonical form -/
  mem_wf : s.mem.wf
  /-- no cell is listed outside [0, N) (`20_memory.md` R41) -/
  mem_inside : ∀ c ∈ s.mem, c.1 < s.cfg.memSize
  /-- the pc keeps its range (`10_state.md` R25) -/
  pc_range : s.pcInRange
  /-- at most one of E, L, G is 1 (`42_alu.md` R114) -/
  flags_exclusive : s.fl.count ≤ 1

/-- A run of `n` cycles from `s` that never enters FAULTED: the premise of a claim about a program
(`40_dispatch.md` R91). -/
def SafeFor (n : Nat) (s : State) : Prop :=
  ∀ k ≤ n, ∀ f, (cycles k s).status ≠ .faulted f

/-- A run from `s` that ends well (`40_dispatch.md` R91): some number of cycles reaches HALTED. -/
def EndsWell (s : State) : Prop := ∃ n, (cycles n s).status = .halted

end Sys2Proof.Machine
end

