-- ==== Sys2Proof/Certificates/Slice0/Obligations.lean ====
section
/-! DEFINITION. The statements for the provers, `def Obligations.<Name> : Prop`, and the small vocabulary they
share. "the spec's own choice" in a docstring names a decision D<n> of `92_eei_decisions.md` that a clause rests
on; "the model's choice" names a log entry. -/

namespace Sys2Proof.Claims

open Sys2Proof.Machine

/-- The register an existing register operand names (`10_state.md` R24). -/
abbrev regOf (b : Byte) (h : registerExists b) : Fin 8 := ⟨b.toNat, h⟩

/-- What a pc update to `target` leaves in pc: `mod N` under `wrap`, as is under `fault`. -/
def pcAfter (s : State) (target : Nat) : Nat :=
  if s.cfg.oob = .wrap then target % s.cfg.memSize else target

/-- Every byte of memory reads as before. -/
abbrev SameMemory (s t : State) : Prop := ∀ a, t.mem.read a = s.mem.read a

/-- Every byte of memory but the one at `k` reads as before. -/
abbrev SameMemoryBut (k : Nat) (s t : State) : Prop := ∀ a, a ≠ k → t.mem.read a = s.mem.read a

/-- Every register but the listed ones is as before. -/
abbrev SameRegsBut (ks : List (Fin 8)) (s t : State) : Prop := ∀ j, j ∉ ks → t.readReg j = s.readReg j

/-- The parameters and IR are as before: no instruction's own effect writes them. -/
abbrev SameParamsAndIr (s t : State) : Prop := t.cfg = s.cfg ∧ t.ir = s.ir

/-- A push from here stays inside memory: always under `wrap`; under `fault`, SP − 1 is in [0, N). -/
abbrev PushFits (s : State) : Prop :=
  s.cfg.oob = .fault → 0 < s.sp.toNat ∧ s.sp.toNat ≤ s.cfg.memSize

/-- The value POP r increments: SP itself, or for r7 the byte just popped into it. -/
def popBase (r : Byte) (s : State) : Nat :=
  if r.toNat = 7 then (s.mem.read s.sp.toNat).toNat else s.sp.toNat

/-- A pop into register r from here stays inside memory: always under `wrap`; under `fault`, SP and the new SP
are in [0, N). -/
abbrev PopFits (r : Byte) (s : State) : Prop :=
  s.cfg.oob = .fault → s.sp.toNat < s.cfg.memSize ∧ popBase r s + 1 < s.cfg.memSize

/-- The registers each instruction writes, by number (`10_state.md` R23). -/
def registersWritten : Instr → List Nat
  | .hlt => []
  | .ret => [7]
  | .prn _ => []
  | .push _ => [7]
  | .pop r => [r.toNat, 7]
  | .call _ => [7]
  | .jmp _ => []
  | .jeq _ => []
  | .jne _ => []
  | .ldi r _ => [r.toNat]
  | .add a _ => [a.toNat]
  | .mul a _ => [a.toNat]
  | .cmp _ _ => []

/-- The registers each instruction reads, by number, given FL.E (`10_state.md` R23). -/
def registersRead (e : Bool) : Instr → List Nat
  | .hlt => []
  | .ret => [7]
  | .prn r => [r.toNat]
  | .push r => [7, r.toNat]
  | .pop _ => [7]
  | .call r => [7, r.toNat]
  | .jmp r => [r.toNat]
  | .jeq r => if e then [r.toNat] else []
  | .jne r => if e then [] else [r.toNat]
  | .ldi _ _ => []
  | .add a b => [a.toNat, b.toNat]
  | .mul a b => [a.toNat, b.toNat]
  | .cmp a b => [a.toNat, b.toNat]

/-- The next cycle from here runs byte b as its opcode: b is the byte at pc; a cycle that gets past its fetch runs
an instruction of opcode b, and one that completes has b in IR; a b that is no opcode raises IllegalOpcode, and
OPCODE_HLT halts the CORE here. -/
def NextCycleRuns (b : Byte) (s : State) : Prop :=
  memRead s (s.pc : Int) = .ok b ∧
  (∀ ir i, fetch s = .ok (ir, i) → ir = b ∧ s.cfg.opcodes.byte i.mnemonic = b) ∧
  (∀ t, step s = .next t → t.ir = b) ∧
  ((∀ x, s.cfg.opcodes.byte x ≠ b) → step s = .fault (.illegalOpcode s.pc b)) ∧
  (b = s.cfg.opcodes.hlt → ∃ t, step s = .next t ∧ t.status = .halted ∧ t.pc = s.pc)

/-- The instructions that get the dispatcher's default advance (`40_dispatch.md` R85). -/
def getsDefaultAdvance : Mnemonic → Bool
  | .ldi => true
  | .prn => true
  | .mul => true
  | .add => true
  | .push => true
  | .pop => true
  | .cmp => true
  | .hlt => false
  | .ret => false
  | .call => false
  | .jmp => false
  | .jeq => false
  | .jne => false

end Sys2Proof.Claims

open Sys2Proof Sys2Proof.Machine Sys2Proof.Claims

/-! ### Reset and launch -/

/-- `10_state.md` R28, `70_reset_and_hazards.md` R181: for every parameters and every draw of r0 to r6, reset
leaves E = L = G = 0 and every memory cell 0. -/
def Obligations.ResetClearsFlagsAndMemory : Prop :=
  ∀ (cfg : Config) (draws : Vector Byte 7),
    (State.resetWith cfg draws).fl.e = false ∧ (State.resetWith cfg draws).fl.l = false ∧
    (State.resetWith cfg draws).fl.g = false ∧ ∀ a, (State.resetWith cfg draws).mem.read a = 0#8

/-- `10_state.md` R35, `70_reset_and_hazards.md` R180, R182, R184: r7 = SP_INIT, r0 to r6 are the draws, pc = 0,
out empty, status RUNNING, and a host reset from any state, HALTED and FAULTED included, is that state. The
spec's own choices D4, D5, D6, D17. -/
def Obligations.ResetSetsRegistersPcAndStatus : Prop :=
  (∀ (cfg : Config) (draws : Vector Byte 7),
    (State.resetWith cfg draws).sp = cfg.spInit ∧
    (∀ (k : Nat) (h : k < 7), (State.resetWith cfg draws).readReg ⟨k, by omega⟩ = draws[k]) ∧
    (State.resetWith cfg draws).pc = 0 ∧ (State.resetWith cfg draws).out = [] ∧
    (State.resetWith cfg draws).status = .running) ∧
  ∀ (s : State) (draws : Vector Byte 7), s.hostReset draws = State.resetWith s.cfg draws

/-- `70_reset_and_hazards.md` R183: preload puts image byte k in cell k and leaves every other cell 0; everything
else is as reset left it. An image longer than N is refused: the spec's own choice D21. -/
def Obligations.LaunchPlacesTheImageAtZero : Prop :=
  ∀ (cfg : Config) (draws : Vector Byte 7) (image : List Byte),
    (image.length ≤ cfg.memSize → ∃ s, launch cfg draws image = .ok s ∧
      (∀ (k : Nat) (h : k < image.length), s.mem.read k = image[k]) ∧
      (∀ k, image.length ≤ k → s.mem.read k = 0#8) ∧
      s = { State.resetWith cfg draws with mem := s.mem }) ∧
    (cfg.memSize < image.length →
      launch cfg draws image = .error (.imageTooLong image.length cfg.memSize))

/-! ### Encoding and decoding -/

/-- Decoding the encoding of ANY instruction gives it back and leaves the bytes after it, for every operand byte
and every opcode assignment that meets `30_encoding.md` R63. -/
def Obligations.DecodeOfEncodeIsTheInstruction : Prop :=
  ∀ (m : OpcodeMap), m.wf → ∀ (i : Instr) (rest : List Byte),
    decode m (encode m i ++ rest) = .ok (i, rest)

/-- The other direction: a byte list that decodes begins with the encoding of what it decodes to, so no two
encodings stand for one instruction. -/
def Obligations.DecodedBytesAreTheEncoding : Prop :=
  ∀ (m : OpcodeMap) (bs rest : List Byte) (i : Instr),
    decode m bs = .ok (i, rest) → bs = encode m i ++ rest

/-- Bytes written out from `30_encoding.md` R62 and R65 decode to the instructions they stand for. The opcode
values are the spec's own choice D7, from general knowledge (log 5). -/
def Obligations.SpecWordsDecode : Prop :=
  decode OpcodeMap.default [0b00000001#8] = .ok (.hlt, []) ∧
  decode OpcodeMap.default [0b01000101#8, 0b00000011#8] = .ok (.push 3#8, []) ∧
  decode OpcodeMap.default [0b01010101#8, 0b00000010#8] = .ok (.jeq 2#8, []) ∧
  decode OpcodeMap.default [0b10000010#8, 0b00000000#8, 0b00001000#8] = .ok (.ldi 0#8 8#8, []) ∧
  decode OpcodeMap.default [0b10100010#8, 0b00000000#8, 0b00000001#8] = .ok (.mul 0#8 1#8, [])

/-- `40_dispatch.md` R82: a fetched byte that is none of the 13 values raises IllegalOpcode(IR); otherwise the
instruction is the one, unique, whose value it equals. -/
def Obligations.OpcodeByteSelectsTheInstruction : Prop :=
  ∀ (s : State) (b : Byte), s.cfg.wf → s.status = .running → memRead s (s.pc : Int) = .ok b →
    ((∀ x, s.cfg.opcodes.byte x ≠ b) → step s = .fault (.illegalOpcode s.pc b)) ∧
    ∀ x, s.cfg.opcodes.byte x = b →
      (∀ y, s.cfg.opcodes.byte y = b → y = x) ∧
      (∀ ir i, fetch s = .ok (ir, i) → ir = b ∧ i.mnemonic = x) ∧
      step s ≠ .fault (.illegalOpcode s.pc b)

/-- `30_encoding.md` R68: 243 of the 256 byte values are illegal; 0x00 is one under the defaults; executing an
illegal byte raises IllegalOpcode, with no operand byte fetched (wherever the pc is) and nothing written. -/
def Obligations.IllegalBytesNumber243AndFault : Prop :=
  (∀ (m : OpcodeMap), m.wf →
    (Finset.univ.filter (fun n : Fin 256 => BitVec.ofFin n ∉ Mnemonic.all.map m.byte)).card = 243) ∧
  (∀ x, OpcodeMap.default.byte x ≠ 0#8) ∧
  ∀ (s : State) (b : Byte), s.status = .running → memRead s (s.pc : Int) = .ok b →
    (∀ x, s.cfg.opcodes.byte x ≠ b) →
      step s = .fault (.illegalOpcode s.pc b) ∧
      cycle s = { s with status := .faulted (.illegalOpcode s.pc b) }

/-- `30_encoding.md` R60 and `40_dispatch.md` R83: the count is IR >> 6; an instruction occupies 1 + count
bytes, so 1, 2 or 3; a legal opcode's count is 0, 1 or 2, so a byte that would claim 3 operands is illegal. -/
def Obligations.TopTwoBitsGiveTheLength : Prop :=
  ∀ (m : OpcodeMap), m.wf →
    (∀ b : Byte, operandCount b = b.toNat >>> 6) ∧
    (∀ i : Instr, (encode m i).length = 1 + operandCount (m.byte i.mnemonic) ∧
      (encode m i).length ∈ [1, 2, 3]) ∧
    (∀ x, operandCount (m.byte x) ∈ [0, 1, 2]) ∧
    ∀ b : Byte, operandCount b = 3 → ∀ x, m.byte x ≠ b

/-! ### One cycle -/

/-- A STEP RUNS THE DECODED INSTRUCTION (`40_dispatch.md` R88): when the bytes from pc on decode to i, the step
of a RUNNING state is exec of i at that state with IR loaded. That nothing else stands around exec, R85's
default advance being inside it where R88 and R92 put it around exec_X, is the model's choice (log 24). -/
def Obligations.StepRunsTheDecodedInstruction : Prop :=
  ∀ (s : State) (bs rest : List Byte) (i : Instr), s.status = .running →
    decode s.cfg.opcodes bs = .ok (i, rest) →
    (∀ (k : Nat) (v : Byte), k < i.length → bs[k]? = some v → memRead s ((s.pc : Int) + k) = .ok v) →
      step s = exec i (s.loadIr (s.cfg.opcodes.byte i.mnemonic))

/-- `40_dispatch.md` R81: a cycle that completes has loaded IR with the byte at pc; under `fault` a pc of N or
more raises MemOutOfBounds(pc) before anything else; under `wrap` the pc of a reachable state is in range. -/
def Obligations.FetchReadsTheByteAtPc : Prop :=
  ∀ (s : State), s.status = .running →
    (∀ t, step s = .next t → memRead s (s.pc : Int) = .ok t.ir) ∧
    (s.cfg.oob = .fault → s.cfg.memSize ≤ s.pc → step s = .fault (.memOutOfBounds s.pc s.pc)) ∧
    (s.cfg.oob = .wrap → s.Inv → s.pc < s.cfg.memSize)

/-- `40_dispatch.md` R84: the operand bytes are those at pc+1 and pc+2, as many as the count, read through Addr
(so at (pc+k) mod N under `wrap`), and the instruction then runs from the unchanged state with IR loaded; under
`fault`, the first operand address of N or more raises MemOutOfBounds(pc+k). -/
def Obligations.OperandFetchFollowsTheOpcode : Prop :=
  ∀ (s : State), s.status = .running →
    (∀ ir i, fetch s = .ok (ir, i) → i.operands.length = operandCount ir ∧ step s = exec i (s.loadIr ir) ∧
      ∀ (k : Nat) (h : k < i.operands.length),
        memRead s ((s.pc : Int) + 1 + k) = .ok i.operands[k] ∧
        (s.cfg.oob = .wrap → i.operands[k] = s.mem.read ((s.pc + 1 + k) % s.cfg.memSize))) ∧
    ∀ (ir : Byte) (x : Mnemonic) (k : Nat), s.cfg.oob = .fault → memRead s (s.pc : Int) = .ok ir →
      mnemonicOf s.cfg.opcodes ir = some x → 1 ≤ k → k ≤ operandCount ir →
      s.pc + k = s.cfg.memSize → step s = .fault (.memOutOfBounds s.pc ((s.pc : Int) + k))

/-- `40_dispatch.md` R85: after LDI, PRN, MUL, ADD, PUSH, POP or CMP, pc is pc + 1 + count, mod N under `wrap`;
under `fault` it is at most N, and a result of N faults at the next fetch. -/
def Obligations.DefaultAdvanceMovesPastTheInstruction : Prop :=
  ∀ (s t : State) (ir : Byte) (i : Instr), s.status = .running → fetch s = .ok (ir, i) →
    getsDefaultAdvance i.mnemonic = true → step s = .next t →
      (s.cfg.oob = .wrap → t.pc = (s.pc + 1 + operandCount ir) % s.cfg.memSize) ∧
      (s.cfg.oob = .fault → t.pc = s.pc + 1 + operandCount ir ∧ t.pc ≤ s.cfg.memSize ∧
        (t.pc = s.cfg.memSize → step t = .fault (.memOutOfBounds t.pc t.pc)))

/-! ### The instructions: completion, result and frame -/

/-- LDI completes and loads its immediate unchanged (`41_data.md` R100); nothing but that register and pc
changes. -/
def Obligations.LdiLoadsTheImmediate : Prop :=
  ∀ (r i : Byte) (hr : registerExists r) (s : State),
    ∃ t, Sys2Proof.Machine.exec (.ldi r i) s = .next t ∧ t.readReg (regOf r hr) = i ∧
      t.pc = pcAfter s (s.pc + 3) ∧ SameRegsBut [regOf r hr] s t ∧ SameMemory s t ∧ t.fl = s.fl ∧
      t.status = s.status ∧ t.out = s.out ∧ SameParamsAndIr s t

/-- PRN completes and appends its register's value to out (`41_data.md` R101, R102); no register, flag or byte
of memory changes. -/
def Obligations.PrnAppendsTheRegister : Prop :=
  ∀ (r : Byte) (hr : registerExists r) (s : State),
    ∃ t, Sys2Proof.Machine.exec (.prn r) s = .next t ∧ t.out = s.out ++ [s.readReg (regOf r hr)] ∧
      t.pc = pcAfter s (s.pc + 2) ∧ SameRegsBut [] s t ∧ SameMemory s t ∧ t.fl = s.fl ∧
      t.status = s.status ∧ SameParamsAndIr s t

/-- `42_alu.md` R110, with ADD and MUL (R111, R112): they complete for every register contents, so overflow is
silent; the result is the exact unsigned one mod 256; no flag is set, and nothing but the first operand's
register and pc changes. -/
def Obligations.AddAndMulWrapModulo256 : Prop :=
  ∀ (a b : Byte) (ha : registerExists a) (hb : registerExists b) (s : State),
    (∃ t, Sys2Proof.Machine.exec (.add a b) s = .next t ∧
      (t.readReg (regOf a ha)).toNat =
        ((s.readReg (regOf a ha)).toNat + (s.readReg (regOf b hb)).toNat) % 256 ∧
      t.pc = pcAfter s (s.pc + 3) ∧ SameRegsBut [regOf a ha] s t ∧ SameMemory s t ∧ t.fl = s.fl ∧
      t.status = s.status ∧ t.out = s.out ∧ SameParamsAndIr s t) ∧
    (∃ t, Sys2Proof.Machine.exec (.mul a b) s = .next t ∧
      (t.readReg (regOf a ha)).toNat =
        ((s.readReg (regOf a ha)).toNat * (s.readReg (regOf b hb)).toNat) % 256 ∧
      t.pc = pcAfter s (s.pc + 3) ∧ SameRegsBut [regOf a ha] s t ∧ SameMemory s t ∧ t.fl = s.fl ∧
      t.status = s.status ∧ t.out = s.out ∧ SameParamsAndIr s t)

/-- CMP completes, sets E, L and G by comparing unsigned (`42_alu.md` R113), exactly one of them (R114), and
changes nothing else but pc. That the comparison is unsigned is the spec's own choice D14. -/
def Obligations.CmpSetsExactlyOneFlag : Prop :=
  ∀ (a b : Byte) (ha : registerExists a) (hb : registerExists b) (s : State),
    ∃ t, Sys2Proof.Machine.exec (.cmp a b) s = .next t ∧
      (t.fl.e = true ↔ (s.readReg (regOf a ha)).toNat = (s.readReg (regOf b hb)).toNat) ∧
      (t.fl.l = true ↔ (s.readReg (regOf a ha)).toNat < (s.readReg (regOf b hb)).toNat) ∧
      (t.fl.g = true ↔ (s.readReg (regOf b hb)).toNat < (s.readReg (regOf a ha)).toNat) ∧
      t.fl.e.toNat + t.fl.l.toNat + t.fl.g.toNat = 1 ∧
      t.pc = pcAfter s (s.pc + 3) ∧ SameRegsBut [] s t ∧ SameMemory s t ∧ t.status = s.status ∧
      t.out = s.out ∧ SameParamsAndIr s t

/-- PUSH completes when the new SP is inside memory (`43_stack.md` R121, R122): SP is decremented, the register
is stored at the new SP, and nothing else but pc changes. `PUSH r7` stores the decremented SP: the spec's own
choice D11. The bounds are D9. -/
def Obligations.PushStoresBelowTheStackPointer : Prop :=
  ∀ (r : Byte) (hr : registerExists r) (s : State), s.mem.wf → PushFits s →
    ∃ t k, Sys2Proof.Machine.exec (.push r) s = .next t ∧ t.sp.toNat = (s.sp.toNat + 255) % 256 ∧
      checkAddr s (t.sp.toNat : Int) = .ok k ∧
      t.mem.read k = (if r.toNat = 7 then t.sp else s.readReg (regOf r hr)) ∧ SameMemoryBut k s t ∧
      t.pc = pcAfter s (s.pc + 2) ∧ SameRegsBut [7] s t ∧ t.fl = s.fl ∧ t.status = s.status ∧
      t.out = s.out ∧ SameParamsAndIr s t

/-- POP completes when SP and the new SP are inside memory (`43_stack.md` R121, R123): the register gets the
byte at SP, then r7 is incremented; no byte of memory changes. `POP r7` gives mem[SP] + 1: the spec's own choice
D11. The bounds are D9. -/
def Obligations.PopLoadsFromTheStackPointer : Prop :=
  ∀ (r : Byte) (hr : registerExists r) (s : State), PopFits r s →
    ∃ t k, Sys2Proof.Machine.exec (.pop r) s = .next t ∧ checkAddr s (s.sp.toNat : Int) = .ok k ∧
      (r.toNat ≠ 7 → t.readReg (regOf r hr) = s.mem.read k ∧ t.sp.toNat = (s.sp.toNat + 1) % 256) ∧
      (r.toNat = 7 → t.sp.toNat = ((s.mem.read k).toNat + 1) % 256) ∧
      t.pc = pcAfter s (s.pc + 2) ∧ SameRegsBut [regOf r hr, 7] s t ∧ SameMemory s t ∧ t.fl = s.fl ∧
      t.status = s.status ∧ t.out = s.out ∧ SameParamsAndIr s t

/-- CALL completes when pc + 2 and the new SP are inside memory (`44_control.md` R131): SP is decremented, the
return address pc + 2 is stored at the new SP, and pc is the register's value. `CALL r7` goes to the decremented
SP: the spec's own choice D11. The bounds are D9. -/
def Obligations.CallPushesPcPlusTwoAndJumps : Prop :=
  ∀ (r : Byte) (hr : registerExists r) (s : State), s.cfg.wf → s.mem.wf → PushFits s →
    (s.cfg.oob = .fault → s.pc + 2 < s.cfg.memSize) →
    ∃ t k, Sys2Proof.Machine.exec (.call r) s = .next t ∧ t.sp.toNat = (s.sp.toNat + 255) % 256 ∧
      checkAddr s (t.sp.toNat : Int) = .ok k ∧
      (t.mem.read k).toNat = pcAfter s (s.pc + 2) ∧ SameMemoryBut k s t ∧
      t.pc = pcAfter s (if r.toNat = 7 then t.sp else s.readReg (regOf r hr)).toNat ∧
      SameRegsBut [7] s t ∧ t.fl = s.fl ∧ t.status = s.status ∧ t.out = s.out ∧ SameParamsAndIr s t

/-- RET completes when SP and SP + 1 are inside memory (`44_control.md` R133): pc is the byte at SP, SP is
incremented, and nothing else changes. The bounds are the spec's own choice D9. -/
def Obligations.RetPopsThePc : Prop :=
  ∀ (s : State), (s.cfg.oob = .fault → s.sp.toNat + 1 < s.cfg.memSize) →
    ∃ t k, Sys2Proof.Machine.exec .ret s = .next t ∧ checkAddr s (s.sp.toNat : Int) = .ok k ∧
      t.pc = pcAfter s (s.mem.read k).toNat ∧ t.sp.toNat = (s.sp.toNat + 1) % 256 ∧
      SameRegsBut [7] s t ∧ SameMemory s t ∧ t.fl = s.fl ∧ t.status = s.status ∧ t.out = s.out ∧
      SameParamsAndIr s t

/-- JMP completes and goes to its register's value, whatever it is (`44_control.md` R130, R134); nothing but pc
changes. -/
def Obligations.JmpGoesToTheRegister : Prop :=
  ∀ (r : Byte) (hr : registerExists r) (s : State),
    ∃ t, Sys2Proof.Machine.exec (.jmp r) s = .next t ∧
      t.pc = pcAfter s (s.readReg (regOf r hr)).toNat ∧ SameRegsBut [] s t ∧ SameMemory s t ∧
      t.fl = s.fl ∧ t.status = s.status ∧ t.out = s.out ∧ SameParamsAndIr s t

/-- JEQ and JNE complete, taken or not: taken, they go to the register's value; not taken, to pc + 2, once
(`44_control.md` R136, R137; `40_dispatch.md` R86); nothing but pc changes. -/
def Obligations.JeqAndJneTestTheEqualFlag : Prop :=
  ∀ (r : Byte) (hr : registerExists r) (s : State),
    (∃ t, Sys2Proof.Machine.exec (.jeq r) s = .next t ∧
      t.pc = pcAfter s (if s.fl.e = true then (s.readReg (regOf r hr)).toNat else s.pc + 2) ∧
      SameRegsBut [] s t ∧ SameMemory s t ∧ t.fl = s.fl ∧ t.status = s.status ∧ t.out = s.out ∧
      SameParamsAndIr s t) ∧
    (∃ t, Sys2Proof.Machine.exec (.jne r) s = .next t ∧
      t.pc = pcAfter s (if s.fl.e = true then s.pc + 2 else (s.readReg (regOf r hr)).toNat) ∧
      SameRegsBut [] s t ∧ SameMemory s t ∧ t.fl = s.fl ∧ t.status = s.status ∧ t.out = s.out ∧
      SameParamsAndIr s t)

/-- HLT completes: status is HALTED and nothing else changes (`44_control.md` R141). That pc stays at the HLT is
the spec's own choice D15. -/
def Obligations.HltHaltsInPlace : Prop :=
  ∀ (s : State), ∃ t, Sys2Proof.Machine.exec .hlt s = .next t ∧ t.status = .halted ∧ t.pc = s.pc ∧
    SameRegsBut [] s t ∧ SameMemory s t ∧ t.fl = s.fl ∧ t.out = s.out ∧ SameParamsAndIr s t

/-! ### Checks and faults -/

/-- `10_state.md` R24, `60_exceptions.md` R152, R160: an instruction with a register operand of 8 or more raises
RegOutOfRange of the first such operand, under both policies, and a not-taken JEQ or JNE too. The spec's own
choices D10, D13. -/
def Obligations.BadRegisterOperandFaults : Prop :=
  ∀ (i : Instr) (s : State) (b : Byte),
    i.registerOperands.find? (fun x => decide (8 ≤ x.toNat)) = some b →
      Sys2Proof.Machine.exec i s = .fault (.regOutOfRange s.pc b)

/-- `20_memory.md` R45: the whole of Addr. The spec's own choice D9. -/
def Obligations.AddressCheckFollowsThePolicy : Prop :=
  ∀ (s : State) (a : Int),
    (s.cfg.oob = .fault → 0 ≤ a → a < s.cfg.memSize → checkAddr s a = .ok a.toNat) ∧
    (s.cfg.oob = .fault → a < 0 ∨ (s.cfg.memSize : Int) ≤ a →
      checkAddr s a = .error (.memOutOfBounds s.pc a)) ∧
    (s.cfg.oob = .wrap → 1 ≤ s.cfg.memSize → ∃ k : Nat, checkAddr s a = .ok k ∧ (k : Int) = a % s.cfg.memSize)

/-- `43_stack.md` R121: the whole of SPNew. The spec's own choice D9. -/
def Obligations.StackPointerCheckFollowsThePolicy : Prop :=
  ∀ (s : State) (v : Int), s.cfg.wf →
    (s.cfg.oob = .fault → 0 ≤ v → v < s.cfg.memSize → ∃ b, spNew s v = .ok b ∧ (b.toNat : Int) = v) ∧
    (s.cfg.oob = .fault → v < 0 ∨ (s.cfg.memSize : Int) ≤ v →
      spNew s v = .error (.memOutOfBounds s.pc v)) ∧
    (s.cfg.oob = .wrap → ∃ b, spNew s v = .ok b ∧ (b.toNat : Int) = v % 256)

/-- `20_memory.md` R43: MemRead returns the cell Addr names; MemWrite sets that cell, and no other; both raise
what Addr raises. -/
def Obligations.MemoryAccessMovesOneByte : Prop :=
  ∀ (s : State) (a : Int), s.mem.wf →
    (∀ k, checkAddr s a = .ok k → memRead s a = .ok (s.mem.read k) ∧
      ∀ v, ∃ t, memWrite s a v = .ok t ∧ t.mem.read k = v ∧ SameMemoryBut k s t ∧
        t = { s with mem := t.mem }) ∧
    ∀ f, checkAddr s a = .error f → memRead s a = .error f ∧ ∀ v, memWrite s a v = .error f

/-- `43_stack.md` R122, `44_control.md` R131, `60_exceptions.md` R153, R159: under `fault`, where PUSH and CALL
raise MemOutOfBounds and of what, CALL's return address before its SP. The spec's own choices D9, D13. -/
def Obligations.PushAndCallFaultOutsideMemory : Prop :=
  ∀ (r : Byte) (s : State), registerExists r → s.cfg.oob = .fault →
    (s.sp.toNat = 0 → Sys2Proof.Machine.exec (.push r) s = .fault (.memOutOfBounds s.pc (-1))) ∧
    (s.cfg.memSize < s.sp.toNat →
      Sys2Proof.Machine.exec (.push r) s = .fault (.memOutOfBounds s.pc ((s.sp.toNat : Int) - 1))) ∧
    (s.cfg.memSize ≤ s.pc + 2 →
      Sys2Proof.Machine.exec (.call r) s = .fault (.memOutOfBounds s.pc ((s.pc : Int) + 2))) ∧
    (s.pc + 2 < s.cfg.memSize → s.sp.toNat = 0 →
      Sys2Proof.Machine.exec (.call r) s = .fault (.memOutOfBounds s.pc (-1))) ∧
    (s.pc + 2 < s.cfg.memSize → s.cfg.memSize < s.sp.toNat →
      Sys2Proof.Machine.exec (.call r) s = .fault (.memOutOfBounds s.pc ((s.sp.toNat : Int) - 1)))

/-- `43_stack.md` R123, `44_control.md` R133, `60_exceptions.md` R153, R159: under `fault`, where POP and RET
raise MemOutOfBounds and of what, the read address before the increment. The spec's own choices D9, D11, D13. -/
def Obligations.PopAndRetFaultOutsideMemory : Prop :=
  ∀ (r : Byte) (s : State), registerExists r → s.cfg.oob = .fault →
    (s.cfg.memSize ≤ s.sp.toNat →
      Sys2Proof.Machine.exec (.pop r) s = .fault (.memOutOfBounds s.pc s.sp.toNat) ∧
      Sys2Proof.Machine.exec .ret s = .fault (.memOutOfBounds s.pc s.sp.toNat)) ∧
    (s.sp.toNat < s.cfg.memSize → s.cfg.memSize ≤ popBase r s + 1 →
      Sys2Proof.Machine.exec (.pop r) s = .fault (.memOutOfBounds s.pc ((popBase r s : Int) + 1))) ∧
    (s.sp.toNat < s.cfg.memSize → s.cfg.memSize ≤ s.sp.toNat + 1 →
      Sys2Proof.Machine.exec .ret s = .fault (.memOutOfBounds s.pc ((s.sp.toNat : Int) + 1)))

/-- `60_exceptions.md` R153: under `wrap` no cycle of a running CORE raises MemOutOfBounds. The spec's own
choice D9. -/
def Obligations.WrapNeverRaisesMemOutOfBounds : Prop :=
  ∀ (s : State) (p : Nat) (a : Int), s.status = .running → s.cfg.oob = .wrap →
    step s ≠ .fault (.memOutOfBounds p a)

/-- No instruction and no cycle is refused (`00_scope.md` R4: every instruction is in scope). -/
def Obligations.NothingIsRefused : Prop :=
  (∀ (i : Instr) (s : State) (r : Refusal), Sys2Proof.Machine.exec i s ≠ .refused r) ∧
  ∀ (s : State) (r : Refusal), step s ≠ .refused r

/-- `60_exceptions.md` R157, R158: a cycle of a running CORE that faults records the pc of its opcode byte, sets
the status, and writes nothing else. For faults other than IllegalOpcode this is the spec's own choice D12; that
IR too keeps its value is the model's choice (log 11). -/
def Obligations.FaultsArePrecise : Prop :=
  ∀ (s : State) (f : Fault), s.status = .running → step s = .fault f →
    f.pc = s.pc ∧ cycle s = { s with status := .faulted f }

/-- `60_exceptions.md` R159, under `fault`: the first failing check decides. In order: opcode fetch; decode, so an
illegal opcode faults as illegal wherever its operands would lie; the operand bytes at pc+1, then pc+2; the
register operands in order, before anything the instruction itself checks. The spec's own choices D9, D10,
D13. -/
def Obligations.FirstFailingCheckDecides : Prop :=
  ∀ (s : State), s.status = .running → s.cfg.oob = .fault →
    (s.cfg.memSize ≤ s.pc → step s = .fault (.memOutOfBounds s.pc s.pc)) ∧
    (s.pc < s.cfg.memSize → mnemonicOf s.cfg.opcodes (s.mem.read s.pc) = none →
      step s = .fault (.illegalOpcode s.pc (s.mem.read s.pc))) ∧
    ∀ x, s.pc < s.cfg.memSize → mnemonicOf s.cfg.opcodes (s.mem.read s.pc) = some x →
      (1 ≤ x.operandCount → s.cfg.memSize ≤ s.pc + 1 →
        step s = .fault (.memOutOfBounds s.pc ((s.pc : Int) + 1))) ∧
      (x.operandCount = 2 → s.pc + 1 < s.cfg.memSize → s.cfg.memSize ≤ s.pc + 2 →
        step s = .fault (.memOutOfBounds s.pc ((s.pc : Int) + 2))) ∧
      (s.pc + x.operandCount < s.cfg.memSize →
        ∀ b, (assemble x (s.mem.read (s.pc + 1)) (s.mem.read (s.pc + 2))).registerOperands.find?
            (fun y => decide (8 ≤ y.toNat)) = some b →
          step s = .fault (.regOutOfRange s.pc b))

/-- `60_exceptions.md` R162 (and `10_state.md` R31): HALTED and FAULTED are absorbing: no number of cycles leaves
either or changes any state, so there is no return from a fault; a host reset leaves both. -/
def Obligations.StoppedCoreNeverChanges : Prop :=
  (∀ (s : State) (n : Nat), s.status ≠ .running → cycles n s = s) ∧
  ∀ (s : State) (draws : Vector Byte 7), (s.hostReset draws).status = .running

/-- `60_exceptions.md` R156: the status codes; code 2 is never produced. Codes 3 and 4 are the spec's own choice
D16. -/
def Obligations.StatusCodesAreDistinct : Prop :=
  Status.code .running = none ∧ Status.code .halted = some 0 ∧
  (∀ p b, Status.code (.faulted (.illegalOpcode p b)) = some 1) ∧
  (∀ p a, Status.code (.faulted (.memOutOfBounds p a)) = some 3) ∧
  (∀ p b, Status.code (.faulted (.regOutOfRange p b)) = some 4) ∧ ∀ x, Status.code x ≠ some 2

/-! ### Rules about all instructions -/

/-- `10_state.md` R26: E, L and G are 0 after reset; CMP alone writes them, and sets exactly one; no instruction
reads L or G, JEQ and JNE read E and no other instruction does, and FL reaches no register and no byte of
memory. Said by running an instruction from two states that differ in FL alone. That a jump of a register that
does not exist faults whichever way E stands (the fault clause, for JEQ and JNE) is the spec's own choice D10
(log 8), not R26. -/
def Obligations.FlagsAreWrittenByCmpAndReadByJumps : Prop :=
  (∀ (cfg : Config) (draws : Vector Byte 7),
    (State.resetWith cfg draws).fl = { e := false, l := false, g := false }) ∧
  (∀ (r : Byte) (hr : registerExists r) (s t : State),
    (Sys2Proof.Machine.exec (.jeq r) s = .next t →
      t.pc = pcAfter s (if s.fl.e = true then (s.readReg (regOf r hr)).toNat else s.pc + 2)) ∧
    (Sys2Proof.Machine.exec (.jne r) s = .next t →
      t.pc = pcAfter s (if s.fl.e = true then s.pc + 2 else (s.readReg (regOf r hr)).toNat))) ∧
  ∀ (i : Instr) (s : State) (f : Flags),
    (∀ x, Sys2Proof.Machine.exec i s = .fault x → Sys2Proof.Machine.exec i (s.setFlags f) = .fault x) ∧
    ∀ t, Sys2Proof.Machine.exec i s = .next t → ∃ u, Sys2Proof.Machine.exec i (s.setFlags f) = .next u ∧
      u.regs = t.regs ∧ u.mem = t.mem ∧ u.out = t.out ∧ u.status = t.status ∧ u.cfg = t.cfg ∧
      (i.mnemonic = .cmp → u.fl = t.fl ∧ t.fl.e.toNat + t.fl.l.toNat + t.fl.g.toNat = 1) ∧
      (i.mnemonic ≠ .cmp → t.fl = s.fl ∧ u.fl = f) ∧
      (f.e = s.fl.e ∨ (i.mnemonic ≠ .jeq ∧ i.mnemonic ≠ .jne) → u.pc = t.pc)

/-- `10_state.md` R29, `20_memory.md` R42: only PUSH and CALL write memory, and at most one byte of it. -/
def Obligations.OnlyPushAndCallWriteMemory : Prop :=
  ∀ (i : Instr) (s t : State), Sys2Proof.Machine.exec i s = .next t →
    (i.mnemonic ≠ .push → i.mnemonic ≠ .call → t.mem = s.mem) ∧
    (s.mem.wf → ∀ k, checkAddr s (t.sp.toNat : Int) = .ok k → SameMemoryBut k s t)

/-- `10_state.md` R32: out is empty at reset, and a cycle only appends to it: PRN its register's value, any
other instruction nothing. -/
def Obligations.OutputOnlyGrowsByPrn : Prop :=
  (∀ (cfg : Config) (draws : Vector Byte 7), (State.resetWith cfg draws).out = []) ∧
  ∀ (s t : State) (ir : Byte) (i : Instr), s.status = .running → fetch s = .ok (ir, i) → step s = .next t →
    (∀ (r : Byte) (hr : registerExists r), i = .prn r → t.out = s.out ++ [s.readReg (regOf r hr)]) ∧
    (i.mnemonic ≠ .prn → t.out = s.out)

/-- `40_dispatch.md` R87: HLT ends the loop, and no other instruction does: a completed cycle leaves HALTED
exactly if it ran HLT, and RUNNING otherwise; after HLT no cycle changes anything. -/
def Obligations.OnlyHltEndsTheLoop : Prop :=
  ∀ (s t : State) (ir : Byte) (i : Instr), s.status = .running → fetch s = .ok (ir, i) → step s = .next t →
    (i.mnemonic = .hlt → t.status = .halted ∧ ∀ n, cycles n t = t) ∧
    (i.mnemonic ≠ .hlt → t.status = .running)

/-- `10_state.md` R23, the writes column: an instruction that completes leaves every register it does not write
as it was. -/
def Obligations.RegistersWrittenAreThoseOfTheTable : Prop :=
  ∀ (i : Instr) (s t : State), Sys2Proof.Machine.exec i s = .next t →
    ∀ j : Fin 8, j.val ∉ registersWritten i → t.readReg j = s.readReg j

/-- `10_state.md` R23, the reads column: what an instruction does is independent of every register it does not
read: the same fault, or the same memory, pc, FL, status, out and other registers. -/
def Obligations.RegistersReadAreThoseOfTheTable : Prop :=
  ∀ (i : Instr) (s : State) (j : Fin 8) (v : Byte), j.val ∉ registersRead s.fl.e i →
    (∀ x, Sys2Proof.Machine.exec i s = .fault x → Sys2Proof.Machine.exec i (s.writeReg j v) = .fault x) ∧
    ∀ t, Sys2Proof.Machine.exec i s = .next t → ∃ u, Sys2Proof.Machine.exec i (s.writeReg j v) = .next u ∧
      u.mem = t.mem ∧ u.pc = t.pc ∧ u.fl = t.fl ∧ u.status = t.status ∧ u.out = t.out ∧
      (∀ k, k ≠ j ∨ j.val ∈ registersWritten i → u.readReg k = t.readReg k) ∧
      (j.val ∉ registersWritten i → u.readReg j = v)

/-- `10_state.md` R30: each cycle that completes has loaded IR with the byte at pc; the value IR had between
instructions has no effect on a cycle; and no instruction reads IR: from two states that differ in IR alone it
raises the same, or ends in states that differ in IR alone. A cycle that faults leaves IR as it was, which is the
model's choice (log 11), so R30's "each cycle" is said of completing cycles only. -/
def Obligations.InstructionRegisterIsInternal : Prop :=
  (∀ (s : State), s.status = .running →
    (∀ t, step s = .next t → memRead s (s.pc : Int) = .ok t.ir) ∧
    ∀ b, step (s.loadIr b) = step s) ∧
  ∀ (i : Instr) (s : State) (b : Byte),
    (∀ f, Sys2Proof.Machine.exec i s = .fault f → Sys2Proof.Machine.exec i (s.loadIr b) = .fault f) ∧
    ∀ t, Sys2Proof.Machine.exec i s = .next t → Sys2Proof.Machine.exec i (s.loadIr b) = .next (t.loadIr b)

/-- `00_scope.md` R7: the parameters have one value for a whole run. -/
def Obligations.ParametersNeverChange : Prop :=
  ∀ (s : State) (n : Nat), (cycles n s).cfg = s.cfg

/-! ### Invariants -/

/-- Every state a cycle can reach from an admissible one is admissible: parameters, canonical memory inside
[0, N), the pc's range, at most one flag. The pc's range is the model's reading (log 4, DEDUCED): [0, N−1] under
`wrap`, as `10_state.md` R25 says; under `fault`, at most N or below 256, since `44_control.md` R130 stores a
target of N or more as is, where R25 says [0, N]. -/
def Obligations.StepKeepsTheInvariant : Prop :=
  ∀ (s t : State), s.Inv → step s = .next t → t.Inv

/-- The invariant holds after reset, for every admissible parameters and every draw of r0 to r6, the state
`State.reset` among them. -/
def Obligations.InvariantHoldsAtReset : Prop :=
  State.reset.Inv ∧
  ∀ (cfg : Config) (draws : Vector Byte 7), cfg.wf → (State.resetWith cfg draws).Inv

/-- The invariant holds of every state that any program reaches from its launch, through faults too: whatever
the admissible parameters, the draws, the image that fits and the number of cycles. Its pc range is the model's
reading (log 4). -/
def Obligations.EveryReachableStateMeetsTheInvariant : Prop :=
  ∀ (cfg : Config) (draws : Vector Byte 7) (image : List Byte) (s : State) (n : Nat), cfg.wf →
    launch cfg draws image = .ok s → (cycles n s).Inv

/-- The canonical form makes memories that read alike equal data. -/
def Obligations.MemoriesThatReadAlikeAreEqual : Prop :=
  ∀ (m₁ m₂ : Memory), m₁.wf → m₂.wf → (∀ a, m₁.read a = m₂.read a) → m₁ = m₂

/-! ### Rules about two instructions -/

/-- The source's property "LDI followed by PRN on the same register always outputs exactly the immediate loaded"
(`95_test_vectors.md` S4, T2). -/
def Obligations.LdiThenPrnOutputsTheImmediate : Prop :=
  ∀ (r i : Byte) (s : State), registerExists r →
    ∃ t u, Sys2Proof.Machine.exec (.ldi r i) s = .next t ∧ Sys2Proof.Machine.exec (.prn r) t = .next u ∧
      u.out = s.out ++ [i]

/-- `43_stack.md` R124: PUSH then POP into another register copies the value and restores SP. -/
def Obligations.PushThenPopCopiesTheValue : Prop :=
  ∀ (a b : Byte) (ha : registerExists a) (hb : registerExists b) (s t : State), s.mem.wf →
    a.toNat ≠ 7 → b.toNat ≠ 7 → s.sp.toNat < s.cfg.memSize → Sys2Proof.Machine.exec (.push a) s = .next t →
      ∃ u, Sys2Proof.Machine.exec (.pop b) t = .next u ∧ u.sp = s.sp ∧
        u.readReg (regOf b hb) = s.readReg (regOf a ha)

/-- `44_control.md` R132: a CALL, then any code that leaves SP and the byte at SP as CALL left them, then a RET:
execution resumes at the CALL's own address plus 2, with SP as before the CALL. Under `wrap` this holds from every
SP; under `fault` from SP < N, since from SP = N it is the RET that faults (R132's "nothing faults"). The bounds
are the spec's own choice D9. -/
def Obligations.CallThenRetResumesAfterTheCall : Prop :=
  ∀ (r : Byte) (s t u : State), s.cfg.wf → s.mem.wf →
    (s.cfg.oob = .fault → s.sp.toNat < s.cfg.memSize) →
    Sys2Proof.Machine.exec (.call r) s = .next t → u.cfg = t.cfg → u.sp = t.sp →
    (∀ k, checkAddr s (t.sp.toNat : Int) = .ok k → u.mem.read k = t.mem.read k) →
      ∃ v, Sys2Proof.Machine.exec .ret u = .next v ∧ v.pc = pcAfter s (s.pc + 2) ∧ v.sp = s.sp

/-- `44_control.md` R138: after CMP a, b, JEQ jumps iff a = b and JNE iff a ≠ b. -/
def Obligations.CmpThenConditionalJump : Prop :=
  ∀ (a b r : Byte) (ha : registerExists a) (hb : registerExists b) (hr : registerExists r) (s t : State),
    Sys2Proof.Machine.exec (.cmp a b) s = .next t →
      (∃ u, Sys2Proof.Machine.exec (.jeq r) t = .next u ∧
        u.pc = pcAfter s (if s.readReg (regOf a ha) = s.readReg (regOf b hb)
          then (s.readReg (regOf r hr)).toNat else t.pc + 2)) ∧
      ∃ u, Sys2Proof.Machine.exec (.jne r) t = .next u ∧
        u.pc = pcAfter s (if s.readReg (regOf a ha) = s.readReg (regOf b hb)
          then t.pc + 2 else (s.readReg (regOf r hr)).toNat)

/-- `20_memory.md` R53, `70_reset_and_hazards.md` R187: when PUSH or CALL stores where the next instruction is
fetched, the very next cycle fetches the stored byte, whatever it is: the register's value for PUSH, the return
address for CALL. For r = 7 the register's value is the decremented SP: the spec's own choice D11. -/
def Obligations.StoredByteIsFetchedNext : Prop :=
  ∀ (r : Byte) (hr : registerExists r) (s t : State) (k : Nat), s.cfg.wf → s.mem.wf → s.status = .running →
    checkAddr t (t.sp.toNat : Int) = .ok k → checkAddr t (t.pc : Int) = .ok k →
      (Sys2Proof.Machine.exec (.push r) s = .next t →
        (r.toNat ≠ 7 → t.readReg (regOf r hr) = s.readReg (regOf r hr)) ∧
        NextCycleRuns (t.readReg (regOf r hr)) t) ∧
      (Sys2Proof.Machine.exec (.call r) s = .next t →
        NextCycleRuns (BitVec.ofNat 8 (pcAfter s (s.pc + 2))) t)
end

