-- ==== Sys2Proof/Laws/Result.lean ====
section
/-! SUPPORT. How a chain of checks answers or raises, said once for every error type, and how `complete` turns
it into an outcome. -/

namespace Sys2Proof

/-- A chain of checks answers exactly when its first check does and the rest does from there. -/
theorem bind_ok {ε α β : Type} {x : Except ε α} {f : α → Except ε β} {b : β} :
    (x >>= f) = .ok b ↔ ∃ a, x = .ok a ∧ f a = .ok b := by
  cases x <;> simp [bind, Except.bind]

/-- A chain of checks raises exactly when its first check does, or it passes and the rest raises. -/
theorem bind_error {ε α β : Type} {x : Except ε α} {f : α → Except ε β} {e : ε} :
    (x >>= f) = .error e ↔ x = .error e ∨ ∃ a, x = .ok a ∧ f a = .error e := by
  cases x <;> simp [bind, Except.bind]

@[simp] theorem ok_bind {ε α β : Type} (a : α) (f : α → Except ε β) :
    ((Except.ok a : Except ε α) >>= f) = f a := rfl

@[simp] theorem error_bind {ε α β : Type} (e : ε) (f : α → Except ε β) :
    ((Except.error e : Except ε α) >>= f) = .error e := rfl

@[simp] theorem pure_eq_ok {ε α : Type} (a : α) : (pure a : Except ε α) = .ok a := rfl

namespace Machine

@[simp] theorem complete_next {r : Result State} {t : State} : complete r = .next t ↔ r = .ok t := by
  cases r <;> simp [complete]

@[simp] theorem complete_fault {r : Result State} {f : Fault} : complete r = .fault f ↔ r = .error f := by
  cases r <;> simp [complete]

@[simp] theorem complete_refused {r : Result State} {f : Refusal} : complete r ≠ .refused f := by
  cases r <;> simp [complete]

end Machine

end Sys2Proof
end

