-- ==== Sys2Proof/Laws/Decode.lean ====
section
/-! SUPPORT. What the decoder's parts do, and its inversion lemma; decode and encode meet through them. -/

namespace Sys2Proof

theorem Mnemonic.mem_all (x : Mnemonic) : x ∈ Mnemonic.all := by
  cases x <;> decide

/-- `IR[7:6]` is the byte divided by 64. -/
theorem operandCount_eq (b : Byte) : operandCount b = b.toNat / 64 := by
  have := b.isLt
  simp only [operandCount, BitVec.extractLsb_toNat, Nat.shiftRight_eq_div_pow]
  omega

/-- A byte is taken for an instruction only if it is that instruction's opcode value and carries its count. -/
theorem mnemonicOf_some {m : OpcodeMap} {b : Byte} {x : Mnemonic} (h : mnemonicOf m b = some x) :
    m.byte x = b ∧ operandCount b = x.operandCount := by
  simpa using List.find?_some h

/-- A byte is refused exactly if no instruction has it as opcode value with its count. -/
theorem mnemonicOf_none {m : OpcodeMap} {b : Byte} :
    mnemonicOf m b = none ↔ ∀ x, m.byte x = b → operandCount b ≠ x.operandCount := by
  simp [mnemonicOf, Mnemonic.mem_all]

/-- Distinct instructions have distinct opcode values (`30_encoding.md` R63). -/
theorem OpcodeMap.byte_injective {m : OpcodeMap} (hm : m.wf) {x y : Mnemonic} (h : m.byte x = m.byte y) :
    x = y :=
  List.inj_on_of_nodup_map hm.1 (Mnemonic.mem_all x) (Mnemonic.mem_all y) h

/-- An opcode value's top two bits are its instruction's operand count (`30_encoding.md` R63). -/
theorem OpcodeMap.operandCount_byte {m : OpcodeMap} (hm : m.wf) (x : Mnemonic) :
    operandCount (m.byte x) = x.operandCount := by
  rw [operandCount_eq]
  exact hm.2 x (Mnemonic.mem_all x)

/-- Every opcode value is taken for its own instruction. -/
theorem mnemonicOf_byte {m : OpcodeMap} (hm : m.wf) (x : Mnemonic) : mnemonicOf m (m.byte x) = some x := by
  cases h : mnemonicOf m (m.byte x) with
  | none => exact absurd (OpcodeMap.operandCount_byte hm x) (mnemonicOf_none.mp h x rfl)
  | some y => rw [OpcodeMap.byte_injective hm (mnemonicOf_some h).1]

@[simp] theorem assemble_mnemonic (x : Mnemonic) (a b : Byte) : (assemble x a b).mnemonic = x := by
  cases x <;> rfl

theorem Instr.operands_length (i : Instr) : i.operands.length = i.mnemonic.operandCount := by
  cases i <;> rfl

theorem encode_length (m : OpcodeMap) (i : Instr) : (encode m i).length = i.length := by
  simp [encode, Instr.length, Instr.operands_length, Nat.add_comm]

theorem OpcodeMap.default_wf : OpcodeMap.default.wf := by decide

theorem Config.default_wf : Config.default.wf := by decide

/-- What a successful decode has read: the opcode byte, then the operand bytes its count asks for. -/
theorem decodeFrom_ok {ε : Type} {m : OpcodeMap} {illegal : Byte → ε} {read : Nat → Except ε Byte}
    {ir : Byte} {i : Instr} :
    decodeFrom m illegal read = .ok (ir, i) ↔
      read 0 = .ok ir ∧ mnemonicOf m ir = some i.mnemonic ∧
        ∀ k v, i.operands[k]? = some v → read (k + 1) = .ok v := by
  constructor
  · intro h
    obtain ⟨b, hb, h⟩ := bind_ok.mp h
    split at h
    · simp at h
    · rename_i x hx
      obtain ⟨a1, h1, h⟩ := bind_ok.mp h
      obtain ⟨a2, h2, h⟩ := bind_ok.mp h
      simp only [pure_eq_ok, Except.ok.injEq, Prod.mk.injEq] at h
      obtain ⟨rfl, rfl⟩ := h
      rw [(mnemonicOf_some hx).2] at h1 h2
      refine ⟨hb, by simpa using hx, fun k v hk => ?_⟩
      cases x <;> simp_all [assemble, Instr.operands, operandByte, Mnemonic.operandCount]
      all_goals rcases k with - | - | k <;> simp_all
  · rintro ⟨hb, hx, hk⟩
    have hc := (mnemonicOf_some hx).2
    simp only [decodeFrom, hb, ok_bind, hx, hc]
    cases i <;> simp_all [assemble, Instr.operands, Instr.mnemonic, operandByte, Mnemonic.operandCount]

/-- Why a decode fails, in the order of `60_exceptions.md` R159: the opcode byte cannot be read, it is no
opcode, or an operand byte its count asks for cannot be read. -/
theorem decodeFrom_error {ε : Type} {m : OpcodeMap} {illegal : Byte → ε} {read : Nat → Except ε Byte} {e : ε} :
    decodeFrom m illegal read = .error e ↔
      read 0 = .error e ∨ ∃ ir, read 0 = .ok ir ∧
        (mnemonicOf m ir = none ∧ e = illegal ir ∨
          (∃ x, mnemonicOf m ir = some x) ∧
            (1 ≤ operandCount ir ∧ read 1 = .error e ∨
              2 ≤ operandCount ir ∧ (∃ v, read 1 = .ok v) ∧ read 2 = .error e)) := by
  unfold decodeFrom
  rw [bind_error]
  refine or_congr Iff.rfl (exists_congr fun ir => and_congr Iff.rfl ?_)
  cases h : mnemonicOf m ir with
  | none => simp [@eq_comm _ e]
  | some x =>
    simp only [bind_error, operandByte, pure_eq_ok, reduceCtorEq, and_false, exists_false, or_false, false_and,
      false_or, Option.some.injEq, exists_eq', true_and]
    by_cases h1 : 1 ≤ operandCount ir
    · by_cases h2 : 2 ≤ operandCount ir <;> simp [h1, h2]
    · have h2 : ¬ 2 ≤ operandCount ir := by omega
      simp [h1, h2]

/-- Byte k of a list, when it has one. -/
theorem listByte_ok {bs : List Byte} {k : Nat} {v : Byte} : listByte bs k = .ok v ↔ bs[k]? = some v := by
  unfold listByte
  split <;> simp_all

/-- What a successful decode of a list has read, and what it leaves. -/
theorem decode_ok {m : OpcodeMap} {bs rest : List Byte} {i : Instr} :
    decode m bs = .ok (i, rest) ↔
      (∃ ir, decodeFrom m .illegalOpcode (listByte bs) = .ok (ir, i)) ∧ rest = bs.drop i.length := by
  simp only [decode, bind_ok, pure_eq_ok, Except.ok.injEq, Prod.mk.injEq, Prod.exists]
  constructor
  · rintro ⟨ir, j, h, rfl, rfl⟩
    exact ⟨⟨ir, h⟩, rfl⟩
  · rintro ⟨⟨ir, h⟩, rfl⟩
    exact ⟨ir, i, h, rfl, rfl⟩

end Sys2Proof
end

