-- ==== Sys2Proof/Laws/Memory.lean ====
section
/-! SUPPORT. The laws of memory: a read after a write, the canonical form kept by every operation, and equal
reads of canonical memories are equal data. -/

namespace Sys2Proof.Machine

@[simp] theorem Memory.read_nil (a : Nat) : Memory.read [] a = 0#8 := rfl

theorem Memory.read_list_cons (b : Nat) (v : Byte) (m : Memory) (a : Nat) :
    Memory.read ((b, v) :: m) a = if a = b then v else Memory.read m a := rfl

/-- An address below every listed one reads as unlisted. -/
theorem Memory.read_of_below {m : Memory} {a : Nat} (h : ∀ c ∈ m, a < c.1) : Memory.read m a = 0#8 := by
  induction m with
  | nil => rfl
  | cons c m ih =>
    obtain ⟨b, v⟩ := c
    have hb : a < b := h (b, v) (by simp)
    rw [Memory.read_list_cons, if_neg (by omega)]
    exact ih fun c hc => h c (by simp [hc])

theorem Memory.read_cons (a : Nat) (v : Byte) {m : Memory} (h : ∀ c ∈ m, a < c.1) (b : Nat) :
    Memory.read (Memory.cons a v m) b = if b = a then v else Memory.read m b := by
  unfold Memory.cons
  split
  · rename_i hv
    split
    · rename_i hb
      rw [hb, hv, Memory.read_of_below h]
    · rfl
  · rfl

/-- A read after a write: the written byte at its address, the old byte elsewhere. -/
theorem Memory.read_write {m : Memory} (hm : m.wf) (a : Nat) (v : Byte) (b : Nat) :
    (m.write a v).read b = if b = a then v else m.read b := by
  induction m with
  | nil => exact Memory.read_cons a v (by simp) b
  | cons c m ih =>
    obtain ⟨d, w⟩ := c
    obtain ⟨hp, hz⟩ := hm
    obtain ⟨hd, hp⟩ := List.pairwise_cons.mp hp
    have hm : Memory.wf m := ⟨hp, fun c hc => hz c (by simp [hc])⟩
    unfold Memory.write
    split
    · rename_i had
      refine Memory.read_cons a v ?_ b
      intro c hc
      rcases List.mem_cons.mp hc with rfl | hc
      · exact had
      · exact lt_trans had (hd c hc)
    · split
      · rename_i _ had
        subst had
        rw [Memory.read_cons a v hd b, Memory.read_list_cons]
        split <;> simp_all
      · rename_i hlt hne
        rw [Memory.read_list_cons, Memory.read_list_cons, ih hm]
        by_cases hb : b = d
        · simp [hb, Ne.symm hne]
        · simp [hb]

@[simp] theorem Memory.read_write_same {m : Memory} (hm : m.wf) (a : Nat) (v : Byte) :
    (m.write a v).read a = v := by
  simp [Memory.read_write hm]

theorem Memory.read_write_other {m : Memory} (hm : m.wf) {a b : Nat} (h : b ≠ a) (v : Byte) :
    (m.write a v).read b = m.read b := by
  simp [Memory.read_write hm, h]

/-- A cell listed after a write was listed before, or is the written one. -/
theorem Memory.mem_write {m : Memory} {a : Nat} {v : Byte} {c : Host.Cell} (h : c ∈ m.write a v) :
    c ∈ m ∨ (c = (a, v) ∧ v ≠ 0#8) := by
  induction m with
  | nil =>
    simp only [Memory.write, Memory.cons] at h
    split at h <;> simp_all
  | cons d m ih =>
    obtain ⟨b, w⟩ := d
    simp only [Memory.write, Memory.cons] at h
    split at h
    · split at h
      · exact .inl h
      · rcases List.mem_cons.mp h with h | h
        · exact .inr ⟨h, by assumption⟩
        · exact .inl h
    · split at h
      · split at h
        · exact .inl (List.mem_cons_of_mem _ h)
        · rcases List.mem_cons.mp h with h | h
          · exact .inr ⟨h, by assumption⟩
          · exact .inl (List.mem_cons_of_mem _ h)
      · rcases List.mem_cons.mp h with h | h
        · exact .inl (by simp [h])
        · rcases ih h with h | h
          · exact .inl (List.mem_cons_of_mem _ h)
          · exact .inr h

theorem Memory.cons_pairwise {a : Nat} {v : Byte} {m : Memory} (h : ∀ c ∈ m, a < c.1)
    (hm : m.Pairwise (fun x y => x.1 < y.1)) :
    (Memory.cons a v m).Pairwise (fun x y => x.1 < y.1) := by
  unfold Memory.cons
  split
  · exact hm
  · exact List.pairwise_cons.mpr ⟨h, hm⟩

theorem Memory.write_pairwise {m : Memory} (a : Nat) (v : Byte) (hm : m.Pairwise (fun x y => x.1 < y.1)) :
    (m.write a v).Pairwise (fun x y => x.1 < y.1) := by
  induction m with
  | nil => exact Memory.cons_pairwise (by simp) List.Pairwise.nil
  | cons d m ih =>
    obtain ⟨b, w⟩ := d
    obtain ⟨hb, hp⟩ := List.pairwise_cons.mp hm
    unfold Memory.write
    split
    · rename_i hab
      refine Memory.cons_pairwise ?_ hm
      intro c hc
      rcases List.mem_cons.mp hc with rfl | hc
      · exact hab
      · exact lt_trans hab (hb c hc)
    · split
      · rename_i _ hab
        exact Memory.cons_pairwise (hab ▸ hb) hp
      · rename_i hlt hne
        refine List.pairwise_cons.mpr ⟨fun c hc => ?_, ih hp⟩
        rcases Memory.mem_write hc with hc | ⟨rfl, -⟩
        · exact hb c hc
        · show b < a
          omega

/-- A write keeps the canonical form. -/
theorem Memory.write_wf {m : Memory} (hm : m.wf) (a : Nat) (v : Byte) : (m.write a v).wf := by
  refine ⟨Memory.write_pairwise a v hm.1, fun c hc => ?_⟩
  rcases Memory.mem_write hc with hc | ⟨rfl, hv⟩
  · exact hm.2 c hc
  · exact hv

/-- A write of a cell below N lists no cell at N or above. -/
theorem Memory.write_inside {m : Memory} {n a : Nat} (hm : ∀ c ∈ m, c.1 < n) (ha : a < n) (v : Byte) :
    ∀ c ∈ m.write a v, c.1 < n := by
  intro c hc
  rcases Memory.mem_write hc with hc | ⟨rfl, -⟩
  · exact hm c hc
  · exact ha

theorem Memory.writeList_wf {m : Memory} (hm : m.wf) (a : Nat) (vs : List Byte) : (m.writeList a vs).wf := by
  induction vs generalizing m a with
  | nil => exact hm
  | cons v vs ih => exact ih (Memory.write_wf hm a v) (a + 1)

theorem Memory.writeList_inside {m : Memory} {n a : Nat} (hm : ∀ c ∈ m, c.1 < n) (vs : List Byte)
    (ha : a + vs.length ≤ n) : ∀ c ∈ m.writeList a vs, c.1 < n := by
  induction vs generalizing m a with
  | nil => exact hm
  | cons v vs ih =>
    rw [List.length_cons] at ha
    exact ih (Memory.write_inside hm (by omega) v) (by omega)

/-- A canonical memory with a listed cell reads that cell. -/
theorem Memory.read_of_mem {m : Memory} (hm : m.wf) {c : Host.Cell} (hc : c ∈ m) : m.read c.1 = c.2 := by
  induction m with
  | nil => simp at hc
  | cons d m ih =>
    obtain ⟨b, w⟩ := d
    obtain ⟨hp, hz⟩ := hm
    obtain ⟨hb, hp⟩ := List.pairwise_cons.mp hp
    rw [Memory.read_list_cons]
    rcases List.mem_cons.mp hc with rfl | hc
    · simp
    · rw [if_neg (by have := hb c hc; simp only at this; omega)]
      exact ih ⟨hp, fun c hc => hz c (by simp [hc])⟩ hc

end Sys2Proof.Machine
end

