-- ==== Sys2Proof/Laws/State.lean ====
section
/-! SUPPORT. One lemma per field per update of State, true by rfl, and how an update reads through the register
accessors; no later proof unfolds a record update. -/

namespace Sys2Proof.Machine

variable (s : State)

@[simp] theorem State.writeReg_cfg (i : Fin 8) (v : Byte) : (s.writeReg i v).cfg = s.cfg := rfl
@[simp] theorem State.writeReg_mem (i : Fin 8) (v : Byte) : (s.writeReg i v).mem = s.mem := rfl
@[simp] theorem State.writeReg_regs (i : Fin 8) (v : Byte) : (s.writeReg i v).regs = s.regs.set i v := rfl
@[simp] theorem State.writeReg_pc (i : Fin 8) (v : Byte) : (s.writeReg i v).pc = s.pc := rfl
@[simp] theorem State.writeReg_fl (i : Fin 8) (v : Byte) : (s.writeReg i v).fl = s.fl := rfl
@[simp] theorem State.writeReg_ir (i : Fin 8) (v : Byte) : (s.writeReg i v).ir = s.ir := rfl
@[simp] theorem State.writeReg_status (i : Fin 8) (v : Byte) : (s.writeReg i v).status = s.status := rfl
@[simp] theorem State.writeReg_out (i : Fin 8) (v : Byte) : (s.writeReg i v).out = s.out := rfl
@[simp] theorem State.writeReg_pcValue (i : Fin 8) (v : Byte) (m : Nat) : (s.writeReg i v).pcValue m = s.pcValue m := rfl

@[simp] theorem State.setSp_cfg (v : Byte) : (s.setSp v).cfg = s.cfg := rfl
@[simp] theorem State.setSp_mem (v : Byte) : (s.setSp v).mem = s.mem := rfl
@[simp] theorem State.setSp_regs (v : Byte) : (s.setSp v).regs = s.regs.set 7 v := rfl
@[simp] theorem State.setSp_pc (v : Byte) : (s.setSp v).pc = s.pc := rfl
@[simp] theorem State.setSp_fl (v : Byte) : (s.setSp v).fl = s.fl := rfl
@[simp] theorem State.setSp_ir (v : Byte) : (s.setSp v).ir = s.ir := rfl
@[simp] theorem State.setSp_status (v : Byte) : (s.setSp v).status = s.status := rfl
@[simp] theorem State.setSp_out (v : Byte) : (s.setSp v).out = s.out := rfl
@[simp] theorem State.setSp_pcValue (v : Byte) (m : Nat) : (s.setSp v).pcValue m = s.pcValue m := rfl

@[simp] theorem State.storeCell_cfg (k : Nat) (v : Byte) : (s.storeCell k v).cfg = s.cfg := rfl
@[simp] theorem State.storeCell_mem (k : Nat) (v : Byte) : (s.storeCell k v).mem = s.mem.write k v := rfl
@[simp] theorem State.storeCell_regs (k : Nat) (v : Byte) : (s.storeCell k v).regs = s.regs := rfl
@[simp] theorem State.storeCell_pc (k : Nat) (v : Byte) : (s.storeCell k v).pc = s.pc := rfl
@[simp] theorem State.storeCell_fl (k : Nat) (v : Byte) : (s.storeCell k v).fl = s.fl := rfl
@[simp] theorem State.storeCell_ir (k : Nat) (v : Byte) : (s.storeCell k v).ir = s.ir := rfl
@[simp] theorem State.storeCell_status (k : Nat) (v : Byte) : (s.storeCell k v).status = s.status := rfl
@[simp] theorem State.storeCell_out (k : Nat) (v : Byte) : (s.storeCell k v).out = s.out := rfl
@[simp] theorem State.storeCell_readReg (k : Nat) (v : Byte) (j : Fin 8) : (s.storeCell k v).readReg j = s.readReg j := rfl
@[simp] theorem State.storeCell_sp (k : Nat) (v : Byte) : (s.storeCell k v).sp = s.sp := rfl
@[simp] theorem State.storeCell_pcValue (k : Nat) (v : Byte) (m : Nat) : (s.storeCell k v).pcValue m = s.pcValue m := rfl

@[simp] theorem State.jump_cfg (n : Nat) : (s.jump n).cfg = s.cfg := rfl
@[simp] theorem State.jump_mem (n : Nat) : (s.jump n).mem = s.mem := rfl
@[simp] theorem State.jump_regs (n : Nat) : (s.jump n).regs = s.regs := rfl
@[simp] theorem State.jump_pc (n : Nat) : (s.jump n).pc = s.pcValue n := rfl
@[simp] theorem State.jump_fl (n : Nat) : (s.jump n).fl = s.fl := rfl
@[simp] theorem State.jump_ir (n : Nat) : (s.jump n).ir = s.ir := rfl
@[simp] theorem State.jump_status (n : Nat) : (s.jump n).status = s.status := rfl
@[simp] theorem State.jump_out (n : Nat) : (s.jump n).out = s.out := rfl
@[simp] theorem State.jump_readReg (n : Nat) (j : Fin 8) : (s.jump n).readReg j = s.readReg j := rfl
@[simp] theorem State.jump_sp (n : Nat) : (s.jump n).sp = s.sp := rfl
@[simp] theorem State.jump_pcValue (n : Nat) (m : Nat) : (s.jump n).pcValue m = s.pcValue m := rfl

@[simp] theorem State.advance_cfg (x : Mnemonic) : (s.advance x).cfg = s.cfg := rfl
@[simp] theorem State.advance_mem (x : Mnemonic) : (s.advance x).mem = s.mem := rfl
@[simp] theorem State.advance_regs (x : Mnemonic) : (s.advance x).regs = s.regs := rfl
@[simp] theorem State.advance_pc (x : Mnemonic) : (s.advance x).pc = s.pcValue (s.pc + 1 + x.operandCount) := rfl
@[simp] theorem State.advance_fl (x : Mnemonic) : (s.advance x).fl = s.fl := rfl
@[simp] theorem State.advance_ir (x : Mnemonic) : (s.advance x).ir = s.ir := rfl
@[simp] theorem State.advance_status (x : Mnemonic) : (s.advance x).status = s.status := rfl
@[simp] theorem State.advance_out (x : Mnemonic) : (s.advance x).out = s.out := rfl
@[simp] theorem State.advance_readReg (x : Mnemonic) (j : Fin 8) : (s.advance x).readReg j = s.readReg j := rfl
@[simp] theorem State.advance_sp (x : Mnemonic) : (s.advance x).sp = s.sp := rfl
@[simp] theorem State.advance_pcValue (x : Mnemonic) (m : Nat) : (s.advance x).pcValue m = s.pcValue m := rfl

@[simp] theorem State.setFlags_cfg (f : Flags) : (s.setFlags f).cfg = s.cfg := rfl
@[simp] theorem State.setFlags_mem (f : Flags) : (s.setFlags f).mem = s.mem := rfl
@[simp] theorem State.setFlags_regs (f : Flags) : (s.setFlags f).regs = s.regs := rfl
@[simp] theorem State.setFlags_pc (f : Flags) : (s.setFlags f).pc = s.pc := rfl
@[simp] theorem State.setFlags_fl (f : Flags) : (s.setFlags f).fl = f := rfl
@[simp] theorem State.setFlags_ir (f : Flags) : (s.setFlags f).ir = s.ir := rfl
@[simp] theorem State.setFlags_status (f : Flags) : (s.setFlags f).status = s.status := rfl
@[simp] theorem State.setFlags_out (f : Flags) : (s.setFlags f).out = s.out := rfl
@[simp] theorem State.setFlags_readReg (f : Flags) (j : Fin 8) : (s.setFlags f).readReg j = s.readReg j := rfl
@[simp] theorem State.setFlags_sp (f : Flags) : (s.setFlags f).sp = s.sp := rfl
@[simp] theorem State.setFlags_pcValue (f : Flags) (m : Nat) : (s.setFlags f).pcValue m = s.pcValue m := rfl

@[simp] theorem State.emit_cfg (v : Byte) : (s.emit v).cfg = s.cfg := rfl
@[simp] theorem State.emit_mem (v : Byte) : (s.emit v).mem = s.mem := rfl
@[simp] theorem State.emit_regs (v : Byte) : (s.emit v).regs = s.regs := rfl
@[simp] theorem State.emit_pc (v : Byte) : (s.emit v).pc = s.pc := rfl
@[simp] theorem State.emit_fl (v : Byte) : (s.emit v).fl = s.fl := rfl
@[simp] theorem State.emit_ir (v : Byte) : (s.emit v).ir = s.ir := rfl
@[simp] theorem State.emit_status (v : Byte) : (s.emit v).status = s.status := rfl
@[simp] theorem State.emit_out (v : Byte) : (s.emit v).out = s.out ++ [v] := rfl
@[simp] theorem State.emit_readReg (v : Byte) (j : Fin 8) : (s.emit v).readReg j = s.readReg j := rfl
@[simp] theorem State.emit_sp (v : Byte) : (s.emit v).sp = s.sp := rfl
@[simp] theorem State.emit_pcValue (v : Byte) (m : Nat) : (s.emit v).pcValue m = s.pcValue m := rfl

@[simp] theorem State.halt_cfg : (s.halt).cfg = s.cfg := rfl
@[simp] theorem State.halt_mem : (s.halt).mem = s.mem := rfl
@[simp] theorem State.halt_regs : (s.halt).regs = s.regs := rfl
@[simp] theorem State.halt_pc : (s.halt).pc = s.pc := rfl
@[simp] theorem State.halt_fl : (s.halt).fl = s.fl := rfl
@[simp] theorem State.halt_ir : (s.halt).ir = s.ir := rfl
@[simp] theorem State.halt_status : (s.halt).status = .halted := rfl
@[simp] theorem State.halt_out : (s.halt).out = s.out := rfl
@[simp] theorem State.halt_readReg (j : Fin 8) : (s.halt).readReg j = s.readReg j := rfl
@[simp] theorem State.halt_sp : (s.halt).sp = s.sp := rfl
@[simp] theorem State.halt_pcValue (m : Nat) : (s.halt).pcValue m = s.pcValue m := rfl

@[simp] theorem State.loadIr_cfg (b : Byte) : (s.loadIr b).cfg = s.cfg := rfl
@[simp] theorem State.loadIr_mem (b : Byte) : (s.loadIr b).mem = s.mem := rfl
@[simp] theorem State.loadIr_regs (b : Byte) : (s.loadIr b).regs = s.regs := rfl
@[simp] theorem State.loadIr_pc (b : Byte) : (s.loadIr b).pc = s.pc := rfl
@[simp] theorem State.loadIr_fl (b : Byte) : (s.loadIr b).fl = s.fl := rfl
@[simp] theorem State.loadIr_ir (b : Byte) : (s.loadIr b).ir = b := rfl
@[simp] theorem State.loadIr_status (b : Byte) : (s.loadIr b).status = s.status := rfl
@[simp] theorem State.loadIr_out (b : Byte) : (s.loadIr b).out = s.out := rfl
@[simp] theorem State.loadIr_readReg (b : Byte) (j : Fin 8) : (s.loadIr b).readReg j = s.readReg j := rfl
@[simp] theorem State.loadIr_sp (b : Byte) : (s.loadIr b).sp = s.sp := rfl
@[simp] theorem State.loadIr_pcValue (b : Byte) (m : Nat) : (s.loadIr b).pcValue m = s.pcValue m := rfl

@[simp] theorem State.enterFault_cfg (f : Fault) : (s.enterFault f).cfg = s.cfg := rfl
@[simp] theorem State.enterFault_mem (f : Fault) : (s.enterFault f).mem = s.mem := rfl
@[simp] theorem State.enterFault_regs (f : Fault) : (s.enterFault f).regs = s.regs := rfl
@[simp] theorem State.enterFault_pc (f : Fault) : (s.enterFault f).pc = s.pc := rfl
@[simp] theorem State.enterFault_fl (f : Fault) : (s.enterFault f).fl = s.fl := rfl
@[simp] theorem State.enterFault_ir (f : Fault) : (s.enterFault f).ir = s.ir := rfl
@[simp] theorem State.enterFault_status (f : Fault) : (s.enterFault f).status = .faulted f := rfl
@[simp] theorem State.enterFault_out (f : Fault) : (s.enterFault f).out = s.out := rfl
@[simp] theorem State.enterFault_readReg (f : Fault) (j : Fin 8) : (s.enterFault f).readReg j = s.readReg j := rfl
@[simp] theorem State.enterFault_sp (f : Fault) : (s.enterFault f).sp = s.sp := rfl
@[simp] theorem State.enterFault_pcValue (f : Fault) (m : Nat) : (s.enterFault f).pcValue m = s.pcValue m := rfl

theorem State.readReg_writeReg (i j : Fin 8) (v : Byte) :
    (s.writeReg i v).readReg j = if i = j then v else s.readReg j := by
  simp only [State.readReg, State.writeReg, Fin.getElem_fin, Vector.getElem_set]
  exact if_congr (by rw [Fin.ext_iff]) rfl rfl

@[simp] theorem State.readReg_writeReg_same (i : Fin 8) (v : Byte) : (s.writeReg i v).readReg i = v := by
  simp [State.readReg_writeReg]

@[simp] theorem State.readReg_writeReg_other {i j : Fin 8} (h : i ≠ j) (v : Byte) :
    (s.writeReg i v).readReg j = s.readReg j := by
  simp [State.readReg_writeReg, h]

@[simp] theorem State.setSp_sp (v : Byte) : (s.setSp v).sp = v := by
  simp [State.setSp, State.sp]

@[simp] theorem State.readReg_setSp_other {j : Fin 8} (h : 7 ≠ j) (v : Byte) :
    (s.setSp v).readReg j = s.readReg j := by
  simp [State.setSp, h]

theorem State.readReg_setSp (j : Fin 8) (v : Byte) :
    (s.setSp v).readReg j = if 7 = j then v else s.readReg j :=
  State.readReg_writeReg s 7 j v

theorem State.sp_writeReg (i : Fin 8) (v : Byte) :
    (s.writeReg i v).sp = if i = 7 then v else s.sp :=
  State.readReg_writeReg s i 7 v

/-- Under `fault` a pc update stores the target as is (`44_control.md` R130). -/
theorem State.pcValue_fault (h : s.cfg.oob = .fault) (n : Nat) : s.pcValue n = n := by
  simp [State.pcValue, h]

/-- Under `wrap` a pc update stores the target mod N (`44_control.md` R130). -/
theorem State.pcValue_wrap (h : s.cfg.oob = .wrap) (n : Nat) : s.pcValue n = n % s.cfg.memSize := by
  simp [State.pcValue, h]

end Sys2Proof.Machine
end

