-- ==== Sys2Proof/Laws/Ops.lean ====
section
/-! SUPPORT. One lemma per shared operation that says everything it can do; the provers cite these instead of
unfolding it. -/

namespace Sys2Proof.Machine

/-! ### Addresses -/

/-- `Addr` answers the cell an address names: itself below N, or its remainder under `wrap`. -/
theorem checkAddr_ok {s : State} {a : Int} {k : Nat} :
    checkAddr s a = .ok k ↔
      (s.cfg.oob = .fault ∧ a = k ∧ k < s.cfg.memSize) ∨
      (s.cfg.oob = .wrap ∧ k = (a % s.cfg.memSize).toNat) := by
  unfold checkAddr
  split <;> rename_i h
  · split <;> rename_i hc
    · simp only [Except.ok.injEq, h, reduceCtorEq, false_and, or_false, true_and]
      omega
    · simp only [reduceCtorEq, h, false_and, or_false, true_and, false_iff]
      omega
  · simp [h, eq_comm]

/-- `Addr` raises only under `fault`, only MemOutOfBounds of its address, only outside [0, N). -/
theorem checkAddr_error {s : State} {a : Int} {f : Fault} :
    checkAddr s a = .error f ↔
      s.cfg.oob = .fault ∧ (a < 0 ∨ (s.cfg.memSize : Int) ≤ a) ∧ f = .memOutOfBounds s.pc a := by
  unfold checkAddr
  split <;> rename_i h
  · split <;> rename_i hc
    · simp only [reduceCtorEq, h, true_and, false_iff]
      omega
    · simp only [Except.error.injEq, h, true_and, @eq_comm _ f]
      exact ⟨fun e => ⟨by omega, e⟩, fun e => e.2⟩
  · simp [h]

/-- `Addr` depends on the parameters and the pc alone. -/
theorem checkAddr_congr {s t : State} (hc : t.cfg = s.cfg) (hp : t.pc = s.pc) (a : Int) :
    checkAddr t a = checkAddr s a := by
  simp [checkAddr, hc, hp]

/-- Which cell `Addr` admits depends on the parameters alone. -/
theorem checkAddr_ok_congr {s t : State} (hc : t.cfg = s.cfg) {a : Int} {k : Nat} :
    checkAddr t a = .ok k ↔ checkAddr s a = .ok k := by
  rw [checkAddr_ok, checkAddr_ok, hc]

/-- Every cell `Addr` admits lies below N, for a memory that has a cell. -/
theorem checkAddr_lt {s : State} {a : Int} {k : Nat} (hn : 1 ≤ s.cfg.memSize) (h : checkAddr s a = .ok k) :
    k < s.cfg.memSize := by
  rcases checkAddr_ok.mp h with ⟨-, -, h⟩ | ⟨-, rfl⟩
  · exact h
  · have := Int.emod_lt_of_pos a (b := s.cfg.memSize) (by omega)
    have := Int.emod_nonneg a (b := s.cfg.memSize) (by omega)
    omega

theorem memRead_ok {s : State} {a : Int} {v : Byte} :
    memRead s a = .ok v ↔ ∃ k, checkAddr s a = .ok k ∧ s.mem.read k = v := by
  simp [memRead, bind_ok]

theorem memRead_error {s : State} {a : Int} {f : Fault} :
    memRead s a = .error f ↔ checkAddr s a = .error f := by
  simp [memRead, bind_error]

theorem memWrite_ok {s t : State} {a : Int} {v : Byte} :
    memWrite s a v = .ok t ↔ ∃ k, checkAddr s a = .ok k ∧ t = s.storeCell k v := by
  simp [memWrite, bind_ok, @eq_comm _ t]

theorem memWrite_error {s : State} {a : Int} {v : Byte} {f : Fault} :
    memWrite s a v = .error f ↔ checkAddr s a = .error f := by
  simp [memWrite, bind_error]

/-! ### Register operands -/

/-- `Reg` answers the register a byte below 8 names. -/
theorem checkReg_ok {s : State} {b : Byte} {k : Fin 8} : checkReg s b = .ok k ↔ b.toNat = k.val := by
  unfold checkReg
  split <;> rename_i h
  · simp [Fin.ext_iff]
  · simp only [reduceCtorEq, false_iff]
    omega

/-- `Reg` raises RegOutOfRange of a byte of 8 or more. -/
theorem checkReg_error {s : State} {b : Byte} {f : Fault} :
    checkReg s b = .error f ↔ 8 ≤ b.toNat ∧ f = .regOutOfRange s.pc b := by
  unfold checkReg
  split <;> rename_i h
  · simp only [reduceCtorEq, false_iff]
    omega
  · simp only [Except.error.injEq, @eq_comm _ f]
    exact ⟨fun e => ⟨by omega, e⟩, fun e => e.2⟩

theorem checkReg_of_lt (s : State) {b : Byte} (h : b.toNat < 8) : checkReg s b = .ok ⟨b.toNat, h⟩ :=
  checkReg_ok.mpr rfl

/-! ### The stack pointer -/

/-- `SPNew` answers the new value itself below N, or its remainder mod 256 under `wrap`. -/
theorem spNew_ok {s : State} {v : Int} {b : Byte} :
    spNew s v = .ok b ↔
      (s.cfg.oob = .fault ∧ 0 ≤ v ∧ v < s.cfg.memSize ∧ b = BitVec.ofInt 8 v) ∨
      (s.cfg.oob = .wrap ∧ b = BitVec.ofInt 8 (v % 256)) := by
  unfold spNew
  split <;> rename_i h
  · split <;> rename_i hc
    · simp [h, hc.1, hc.2, eq_comm]
    · simp only [reduceCtorEq, h, true_and, false_and, or_false, false_iff]
      rintro ⟨h1, h2, -⟩
      exact hc ⟨h1, h2⟩
  · simp [h, eq_comm]

/-- Which value `SPNew` answers depends on the parameters alone. -/
theorem spNew_ok_congr {s t : State} (hc : t.cfg = s.cfg) {v : Int} {b : Byte} :
    spNew t v = .ok b ↔ spNew s v = .ok b := by
  rw [spNew_ok, spNew_ok, hc]

/-- `SPNew` raises only under `fault`, only MemOutOfBounds of the new value, only outside [0, N). -/
theorem spNew_error {s : State} {v : Int} {f : Fault} :
    spNew s v = .error f ↔
      s.cfg.oob = .fault ∧ (v < 0 ∨ (s.cfg.memSize : Int) ≤ v) ∧ f = .memOutOfBounds s.pc v := by
  unfold spNew
  split <;> rename_i h
  · split <;> rename_i hc
    · simp only [reduceCtorEq, h, true_and, false_iff]
      omega
    · simp only [Except.error.injEq, h, true_and, @eq_comm _ f]
      exact ⟨fun e => ⟨by omega, e⟩, fun e => e.2⟩
  · simp [h]

theorem decrementSp_ok {s t : State} :
    decrementSp s = .ok t ↔ ∃ v, spNew s ((s.sp.toNat : Int) - 1) = .ok v ∧ t = s.setSp v := by
  simp [decrementSp, bind_ok, @eq_comm _ t]

theorem decrementSp_error {s : State} {f : Fault} :
    decrementSp s = .error f ↔ spNew s ((s.sp.toNat : Int) - 1) = .error f := by
  simp [decrementSp, bind_error]

theorem incrementSp_ok {s t : State} :
    incrementSp s = .ok t ↔ ∃ v, spNew s ((s.sp.toNat : Int) + 1) = .ok v ∧ t = s.setSp v := by
  simp [incrementSp, bind_ok, @eq_comm _ t]

theorem incrementSp_error {s : State} {f : Fault} :
    incrementSp s = .error f ↔ spNew s ((s.sp.toNat : Int) + 1) = .error f := by
  simp [incrementSp, bind_error]

/-- A decremented SP is one less, mod 256. -/
theorem spNew_pred_toNat {s : State} {b v : Byte} (h : spNew s ((b.toNat : Int) - 1) = .ok v) :
    v.toNat = (b.toNat + 255) % 256 := by
  have hb := b.isLt
  rcases spNew_ok.mp h with ⟨-, h0, -, rfl⟩ | ⟨-, rfl⟩
  all_goals
    rw [BitVec.toNat_ofInt]
    omega

/-- An incremented SP is one more, mod 256. -/
theorem spNew_succ_toNat {s : State} {b v : Byte} (h : spNew s ((b.toNat : Int) + 1) = .ok v) :
    v.toNat = (b.toNat + 1) % 256 := by
  have hb := b.isLt
  rcases spNew_ok.mp h with ⟨-, h0, -, rfl⟩ | ⟨-, rfl⟩
  all_goals
    rw [BitVec.toNat_ofInt]
    omega

/-! ### The checks read the parameters and the pc alone -/

@[simp] theorem checkAddr_writeReg (s : State) (i : Fin 8) (v : Byte) (x : Int) : checkAddr (s.writeReg i v) x = checkAddr s x := rfl
@[simp] theorem spNew_writeReg (s : State) (i : Fin 8) (v : Byte) (x : Int) : spNew (s.writeReg i v) x = spNew s x := rfl
@[simp] theorem checkReg_writeReg (s : State) (i : Fin 8) (v : Byte) (x : Byte) : checkReg (s.writeReg i v) x = checkReg s x := rfl
@[simp] theorem memRead_writeReg (s : State) (i : Fin 8) (v : Byte) (x : Int) : memRead (s.writeReg i v) x = memRead s x := rfl
@[simp] theorem checkAddr_setSp (s : State) (v : Byte) (x : Int) : checkAddr (s.setSp v) x = checkAddr s x := rfl
@[simp] theorem spNew_setSp (s : State) (v : Byte) (x : Int) : spNew (s.setSp v) x = spNew s x := rfl
@[simp] theorem checkReg_setSp (s : State) (v : Byte) (x : Byte) : checkReg (s.setSp v) x = checkReg s x := rfl
@[simp] theorem memRead_setSp (s : State) (v : Byte) (x : Int) : memRead (s.setSp v) x = memRead s x := rfl
@[simp] theorem checkAddr_storeCell (s : State) (k : Nat) (v : Byte) (x : Int) : checkAddr (s.storeCell k v) x = checkAddr s x := rfl
@[simp] theorem spNew_storeCell (s : State) (k : Nat) (v : Byte) (x : Int) : spNew (s.storeCell k v) x = spNew s x := rfl
@[simp] theorem checkReg_storeCell (s : State) (k : Nat) (v : Byte) (x : Byte) : checkReg (s.storeCell k v) x = checkReg s x := rfl
@[simp] theorem checkAddr_setFlags (s : State) (g : Flags) (x : Int) : checkAddr (s.setFlags g) x = checkAddr s x := rfl
@[simp] theorem spNew_setFlags (s : State) (g : Flags) (x : Int) : spNew (s.setFlags g) x = spNew s x := rfl
@[simp] theorem checkReg_setFlags (s : State) (g : Flags) (x : Byte) : checkReg (s.setFlags g) x = checkReg s x := rfl
@[simp] theorem memRead_setFlags (s : State) (g : Flags) (x : Int) : memRead (s.setFlags g) x = memRead s x := rfl
@[simp] theorem checkAddr_loadIr (s : State) (b : Byte) (x : Int) : checkAddr (s.loadIr b) x = checkAddr s x := rfl
@[simp] theorem spNew_loadIr (s : State) (b : Byte) (x : Int) : spNew (s.loadIr b) x = spNew s x := rfl
@[simp] theorem checkReg_loadIr (s : State) (b : Byte) (x : Byte) : checkReg (s.loadIr b) x = checkReg s x := rfl
@[simp] theorem memRead_loadIr (s : State) (b : Byte) (x : Int) : memRead (s.loadIr b) x = memRead s x := rfl
@[simp] theorem checkAddr_emit (s : State) (v : Byte) (x : Int) : checkAddr (s.emit v) x = checkAddr s x := rfl
@[simp] theorem spNew_emit (s : State) (v : Byte) (x : Int) : spNew (s.emit v) x = spNew s x := rfl
@[simp] theorem checkReg_emit (s : State) (v : Byte) (x : Byte) : checkReg (s.emit v) x = checkReg s x := rfl
@[simp] theorem memRead_emit (s : State) (v : Byte) (x : Int) : memRead (s.emit v) x = memRead s x := rfl

end Sys2Proof.Machine
end

