-- ==== Sys2Proof/Laws/Exec.lean ====
section
/-! SUPPORT. One inversion lemma per instruction: everything its meaning can answer as a next state, and
everything it can raise, in terms of the shared operations' own lemmas. -/

namespace Sys2Proof.Machine

variable {s t : State} {f : Fault}

/-! ### Next states -/

theorem execLdi_next {r i : Byte} :
    execLdi r i s = .next t ↔ ∃ k, checkReg s r = .ok k ∧ t = (s.writeReg k i).advance .ldi := by
  simp [execLdi, bind_ok, @eq_comm _ t]

theorem execPrn_next {r : Byte} :
    execPrn r s = .next t ↔ ∃ k, checkReg s r = .ok k ∧ t = (s.emit (s.readReg k)).advance .prn := by
  simp [execPrn, bind_ok, @eq_comm _ t]

theorem aluEffect_ok {op : AluOp} {a b : Byte} :
    aluEffect op a b s = .ok t ↔ ∃ ia ib, checkReg s a = .ok ia ∧ checkReg s b = .ok ib ∧
      t = s.putAlu ia (alu op (s.readReg ia) (s.readReg ib)) := by
  simp [aluEffect, bind_ok, @eq_comm _ t]

theorem execAdd_next {a b : Byte} :
    execAdd a b s = .next t ↔ ∃ ia ib, checkReg s a = .ok ia ∧ checkReg s b = .ok ib ∧
      t = (s.writeReg ia (BitVec.ofNat 8 ((s.readReg ia).toNat + (s.readReg ib).toNat))).advance .add := by
  simp only [execAdd, complete_next, bind_ok, aluEffect_ok, pure_eq_ok, Except.ok.injEq, @eq_comm _ _ t]
  constructor
  · rintro ⟨_, ⟨ia, ib, ha, hb, rfl⟩, rfl⟩
    exact ⟨ia, ib, ha, hb, rfl⟩
  · rintro ⟨ia, ib, ha, hb, rfl⟩
    exact ⟨_, ⟨ia, ib, ha, hb, rfl⟩, rfl⟩

theorem execMul_next {a b : Byte} :
    execMul a b s = .next t ↔ ∃ ia ib, checkReg s a = .ok ia ∧ checkReg s b = .ok ib ∧
      t = (s.writeReg ia (BitVec.ofNat 8 ((s.readReg ia).toNat * (s.readReg ib).toNat))).advance .mul := by
  simp only [execMul, complete_next, bind_ok, aluEffect_ok, pure_eq_ok, Except.ok.injEq, @eq_comm _ _ t]
  constructor
  · rintro ⟨_, ⟨ia, ib, ha, hb, rfl⟩, rfl⟩
    exact ⟨ia, ib, ha, hb, rfl⟩
  · rintro ⟨ia, ib, ha, hb, rfl⟩
    exact ⟨_, ⟨ia, ib, ha, hb, rfl⟩, rfl⟩

theorem execCmp_next {a b : Byte} :
    execCmp a b s = .next t ↔ ∃ ia ib, checkReg s a = .ok ia ∧ checkReg s b = .ok ib ∧
      t = (s.setFlags (compareFlags (s.readReg ia) (s.readReg ib))).advance .cmp := by
  simp only [execCmp, complete_next, bind_ok, aluEffect_ok, pure_eq_ok, Except.ok.injEq, @eq_comm _ _ t]
  constructor
  · rintro ⟨_, ⟨ia, ib, ha, hb, rfl⟩, rfl⟩
    exact ⟨ia, ib, ha, hb, rfl⟩
  · rintro ⟨ia, ib, ha, hb, rfl⟩
    exact ⟨_, ⟨ia, ib, ha, hb, rfl⟩, rfl⟩

theorem execPush_next {r : Byte} :
    execPush r s = .next t ↔ ∃ ir v k, checkReg s r = .ok ir ∧ spNew s ((s.sp.toNat : Int) - 1) = .ok v ∧
      checkAddr s (v.toNat : Int) = .ok k ∧
      t = ((s.setSp v).storeCell k ((s.setSp v).readReg ir)).advance .push := by
  simp only [execPush, complete_next, bind_ok, decrementSp_ok, memWrite_ok, pure_eq_ok, Except.ok.injEq,
    @eq_comm _ _ t]
  constructor
  · rintro ⟨ir, hr, _, ⟨v, hv, rfl⟩, _, ⟨k, hk, rfl⟩, rfl⟩
    exact ⟨ir, v, k, hr, hv, by simpa using hk, rfl⟩
  · rintro ⟨ir, v, k, hr, hv, hk, rfl⟩
    exact ⟨ir, hr, _, ⟨v, hv, rfl⟩, _, ⟨k, by simpa using hk, rfl⟩, rfl⟩

theorem execPop_next {r : Byte} :
    execPop r s = .next t ↔ ∃ ir k v, checkReg s r = .ok ir ∧ checkAddr s (s.sp.toNat : Int) = .ok k ∧
      spNew s (((s.writeReg ir (s.mem.read k)).sp.toNat : Int) + 1) = .ok v ∧
      t = ((s.writeReg ir (s.mem.read k)).setSp v).advance .pop := by
  simp only [execPop, complete_next, bind_ok, incrementSp_ok, memRead_ok, pure_eq_ok, Except.ok.injEq,
    @eq_comm _ _ t]
  constructor
  · rintro ⟨ir, hr, _, ⟨k, hk, rfl⟩, _, ⟨v, hv, rfl⟩, rfl⟩
    exact ⟨ir, k, v, hr, hk, hv, rfl⟩
  · rintro ⟨ir, k, v, hr, hk, hv, rfl⟩
    exact ⟨ir, hr, _, ⟨k, hk, rfl⟩, _, ⟨v, hv, rfl⟩, rfl⟩

theorem execCall_next {r : Byte} :
    execCall r s = .next t ↔ ∃ ir ret v k, checkReg s r = .ok ir ∧ checkAddr s ((s.pc : Int) + 2) = .ok ret ∧
      spNew s ((s.sp.toNat : Int) - 1) = .ok v ∧ checkAddr s (v.toNat : Int) = .ok k ∧
      t = ((s.setSp v).storeCell k (BitVec.ofNat 8 ret)).jump ((s.setSp v).readReg ir).toNat := by
  simp only [execCall, complete_next, bind_ok, decrementSp_ok, memWrite_ok, pure_eq_ok, Except.ok.injEq,
    @eq_comm _ _ t]
  constructor
  · rintro ⟨ir, hr, ret, hret, _, ⟨v, hv, rfl⟩, _, ⟨k, hk, rfl⟩, rfl⟩
    exact ⟨ir, ret, v, k, hr, hret, hv, by simpa using hk, rfl⟩
  · rintro ⟨ir, ret, v, k, hr, hret, hv, hk, rfl⟩
    exact ⟨ir, hr, ret, hret, _, ⟨v, hv, rfl⟩, _, ⟨k, by simpa using hk, rfl⟩, rfl⟩

theorem execRet_next :
    execRet s = .next t ↔ ∃ k v, checkAddr s (s.sp.toNat : Int) = .ok k ∧
      spNew s ((s.sp.toNat : Int) + 1) = .ok v ∧ t = (s.setSp v).jump (s.mem.read k).toNat := by
  simp only [execRet, complete_next, bind_ok, incrementSp_ok, memRead_ok, pure_eq_ok, Except.ok.injEq,
    @eq_comm _ _ t]
  constructor
  · rintro ⟨_, ⟨k, hk, rfl⟩, _, ⟨v, hv, rfl⟩, rfl⟩
    exact ⟨k, v, hk, hv, rfl⟩
  · rintro ⟨k, v, hk, hv, rfl⟩
    exact ⟨_, ⟨k, hk, rfl⟩, _, ⟨v, hv, rfl⟩, rfl⟩

theorem execJmp_next {r : Byte} :
    execJmp r s = .next t ↔ ∃ k, checkReg s r = .ok k ∧ t = s.jump (s.readReg k).toNat := by
  simp [execJmp, bind_ok, @eq_comm _ t]

theorem jumpIf_ok {taken : Bool} {r : Byte} :
    jumpIf taken r s = .ok t ↔ ∃ k, checkReg s r = .ok k ∧
      t = if taken then s.jump (s.readReg k).toNat else s.jump (s.pc + 2) := by
  simp [jumpIf, bind_ok, @eq_comm _ t]

theorem execJeq_next {r : Byte} :
    execJeq r s = .next t ↔ ∃ k, checkReg s r = .ok k ∧
      t = if s.fl.e then s.jump (s.readReg k).toNat else s.jump (s.pc + 2) := by
  simp [execJeq, jumpIf_ok]

theorem execJne_next {r : Byte} :
    execJne r s = .next t ↔ ∃ k, checkReg s r = .ok k ∧
      t = if !s.fl.e then s.jump (s.readReg k).toNat else s.jump (s.pc + 2) := by
  rw [execJne, complete_next, jumpIf_ok]

theorem execHlt_next : execHlt s = .next t ↔ t = s.halt := by
  simp [execHlt, @eq_comm _ t]

/-! ### What no instruction writes -/

/-- No instruction's own effect writes the parameters (`00_scope.md` R7) or IR (`10_state.md` R30). -/
theorem exec_cfg_ir {i : Instr} (h : exec i s = .next t) : t.cfg = s.cfg ∧ t.ir = s.ir := by
  cases i <;> simp only [exec, execHlt_next, execRet_next, execPrn_next, execPush_next, execPop_next,
    execCall_next, execJmp_next, execJeq_next, execJne_next, execLdi_next, execAdd_next, execMul_next,
    execCmp_next] at h
  case hlt => subst h; exact ⟨rfl, rfl⟩
  case ret => obtain ⟨_, _, -, -, rfl⟩ := h; exact ⟨rfl, rfl⟩
  case push => obtain ⟨_, _, _, -, -, -, rfl⟩ := h; exact ⟨rfl, rfl⟩
  case pop => obtain ⟨_, _, _, -, -, -, rfl⟩ := h; exact ⟨rfl, rfl⟩
  case call => obtain ⟨_, _, _, _, -, -, -, -, rfl⟩ := h; exact ⟨rfl, rfl⟩
  case add => obtain ⟨_, _, -, -, rfl⟩ := h; exact ⟨rfl, rfl⟩
  case mul => obtain ⟨_, _, -, -, rfl⟩ := h; exact ⟨rfl, rfl⟩
  case cmp => obtain ⟨_, _, -, -, rfl⟩ := h; exact ⟨rfl, rfl⟩
  case jeq => obtain ⟨_, -, rfl⟩ := h; split <;> exact ⟨rfl, rfl⟩
  case jne => obtain ⟨_, -, rfl⟩ := h; split <;> exact ⟨rfl, rfl⟩
  all_goals obtain ⟨_, -, rfl⟩ := h; exact ⟨rfl, rfl⟩

/-! ### Faults -/

theorem execLdi_fault {r i : Byte} : execLdi r i s = .fault f ↔ checkReg s r = .error f := by
  simp [execLdi, bind_error]

theorem execPrn_fault {r : Byte} : execPrn r s = .fault f ↔ checkReg s r = .error f := by
  simp [execPrn, bind_error]

theorem aluEffect_error {op : AluOp} {a b : Byte} :
    aluEffect op a b s = .error f ↔
      checkReg s a = .error f ∨ (∃ ia, checkReg s a = .ok ia) ∧ checkReg s b = .error f := by
  simp [aluEffect, bind_error]

theorem execAdd_fault {a b : Byte} :
    execAdd a b s = .fault f ↔
      checkReg s a = .error f ∨ (∃ ia, checkReg s a = .ok ia) ∧ checkReg s b = .error f := by
  simp [execAdd, bind_error, aluEffect_error]

theorem execMul_fault {a b : Byte} :
    execMul a b s = .fault f ↔
      checkReg s a = .error f ∨ (∃ ia, checkReg s a = .ok ia) ∧ checkReg s b = .error f := by
  simp [execMul, bind_error, aluEffect_error]

theorem execCmp_fault {a b : Byte} :
    execCmp a b s = .fault f ↔
      checkReg s a = .error f ∨ (∃ ia, checkReg s a = .ok ia) ∧ checkReg s b = .error f := by
  simp [execCmp, bind_error, aluEffect_error]

/-- PUSH raises in the order of `60_exceptions.md` R159: register operand, SP decrement, store address. -/
theorem execPush_fault {r : Byte} :
    execPush r s = .fault f ↔ checkReg s r = .error f ∨
      (∃ ir, checkReg s r = .ok ir) ∧ (spNew s ((s.sp.toNat : Int) - 1) = .error f ∨
        ∃ v, spNew s ((s.sp.toNat : Int) - 1) = .ok v ∧ checkAddr s (v.toNat : Int) = .error f) := by
  simp only [execPush, complete_fault, bind_error, decrementSp_error, decrementSp_ok, memWrite_error,
    pure_eq_ok, reduceCtorEq, and_false, exists_false, or_false]
  refine or_congr Iff.rfl ⟨?_, ?_⟩
  · rintro ⟨ir, hr, h | ⟨_, ⟨v, hv, rfl⟩, h⟩⟩
    · exact ⟨⟨ir, hr⟩, .inl h⟩
    · exact ⟨⟨ir, hr⟩, .inr ⟨v, hv, by simpa using h⟩⟩
  · rintro ⟨⟨ir, hr⟩, h | ⟨v, hv, h⟩⟩
    · exact ⟨ir, hr, .inl h⟩
    · exact ⟨ir, hr, .inr ⟨_, ⟨v, hv, rfl⟩, by simpa using h⟩⟩

/-- POP raises in the order of `60_exceptions.md` R159: register operand, read address, SP increment. -/
theorem execPop_fault {r : Byte} :
    execPop r s = .fault f ↔ checkReg s r = .error f ∨
      ∃ ir, checkReg s r = .ok ir ∧ (checkAddr s (s.sp.toNat : Int) = .error f ∨
        ∃ k, checkAddr s (s.sp.toNat : Int) = .ok k ∧
          spNew s (((s.writeReg ir (s.mem.read k)).sp.toNat : Int) + 1) = .error f) := by
  simp only [execPop, complete_fault, bind_error, incrementSp_error, memRead_error, memRead_ok, pure_eq_ok,
    reduceCtorEq, and_false, exists_false, or_false]
  refine or_congr Iff.rfl (exists_congr fun ir => and_congr Iff.rfl (or_congr Iff.rfl ⟨?_, ?_⟩))
  · rintro ⟨_, ⟨k, hk, rfl⟩, h⟩
    exact ⟨k, hk, h⟩
  · rintro ⟨k, hk, h⟩
    exact ⟨_, ⟨k, hk, rfl⟩, h⟩

/-- CALL raises in the order of `44_control.md` R131: register operand, return address, SP decrement, store
address. -/
theorem execCall_fault {r : Byte} :
    execCall r s = .fault f ↔ checkReg s r = .error f ∨
      (∃ ir, checkReg s r = .ok ir) ∧ (checkAddr s ((s.pc : Int) + 2) = .error f ∨
        (∃ ret, checkAddr s ((s.pc : Int) + 2) = .ok ret) ∧ (spNew s ((s.sp.toNat : Int) - 1) = .error f ∨
          ∃ v, spNew s ((s.sp.toNat : Int) - 1) = .ok v ∧ checkAddr s (v.toNat : Int) = .error f)) := by
  simp only [execCall, complete_fault, bind_error, decrementSp_error, decrementSp_ok, memWrite_error,
    pure_eq_ok, reduceCtorEq, and_false, exists_false, or_false]
  refine or_congr Iff.rfl ⟨?_, ?_⟩
  · rintro ⟨ir, hr, h | ⟨ret, hret, h | ⟨_, ⟨v, hv, rfl⟩, h⟩⟩⟩
    · exact ⟨⟨ir, hr⟩, .inl h⟩
    · exact ⟨⟨ir, hr⟩, .inr ⟨⟨ret, hret⟩, .inl h⟩⟩
    · exact ⟨⟨ir, hr⟩, .inr ⟨⟨ret, hret⟩, .inr ⟨v, hv, by simpa using h⟩⟩⟩
  · rintro ⟨⟨ir, hr⟩, h | ⟨⟨ret, hret⟩, h | ⟨v, hv, h⟩⟩⟩
    · exact ⟨ir, hr, .inl h⟩
    · exact ⟨ir, hr, .inr ⟨ret, hret, .inl h⟩⟩
    · exact ⟨ir, hr, .inr ⟨ret, hret, .inr ⟨_, ⟨v, hv, rfl⟩, by simpa using h⟩⟩⟩

/-- RET raises in the order of `60_exceptions.md` R159: read address, SP increment. -/
theorem execRet_fault :
    execRet s = .fault f ↔ checkAddr s (s.sp.toNat : Int) = .error f ∨
      (∃ k, checkAddr s (s.sp.toNat : Int) = .ok k) ∧ spNew s ((s.sp.toNat : Int) + 1) = .error f := by
  simp only [execRet, complete_fault, bind_error, incrementSp_error, memRead_error, memRead_ok, pure_eq_ok,
    reduceCtorEq, and_false, exists_false, or_false]
  refine or_congr Iff.rfl ⟨?_, ?_⟩
  · rintro ⟨_, ⟨k, hk, rfl⟩, h⟩
    exact ⟨⟨k, hk⟩, h⟩
  · rintro ⟨⟨k, hk⟩, h⟩
    exact ⟨_, ⟨k, hk, rfl⟩, h⟩

theorem execJmp_fault {r : Byte} : execJmp r s = .fault f ↔ checkReg s r = .error f := by
  simp [execJmp, bind_error]

theorem execJeq_fault {r : Byte} : execJeq r s = .fault f ↔ checkReg s r = .error f := by
  simp [execJeq, jumpIf, bind_error]

theorem execJne_fault {r : Byte} : execJne r s = .fault f ↔ checkReg s r = .error f := by
  simp [execJne, jumpIf, bind_error]

end Sys2Proof.Machine
end

