-- ==== Sys2Proof/Laws/PerInstr.lean ====
section
/-! SUPPORT. The statements made per instruction (LAWS.json). `EncodingShape`: an instruction's encoding is as
long as the instruction (`30_encoding.md` R60), begins with its opcode value, and a well-formed instruction's
register operands all stand in it. -/

namespace Sys2Proof.Laws.EncodingShape

/-- The shape of an encoding (`30_encoding.md` R60, R65). -/
def Statement (i : Instr) : Prop :=
  ∀ m : OpcodeMap, (encode m i).length = i.length ∧ (encode m i).head? = some (m.byte i.mnemonic) ∧
    (i.wf = true ↔ ∀ b ∈ i.registerOperands, registerExists b) ∧ i.registerOperands.Sublist (encode m i).tail

theorem hlt : Statement .hlt := fun m => ⟨rfl, rfl, by simp [Instr.wf, Instr.registerOperands], by
  simp [Instr.registerOperands]⟩

theorem ret : Statement .ret := fun m => ⟨rfl, rfl, by simp [Instr.wf, Instr.registerOperands], by
  simp [Instr.registerOperands]⟩

theorem prn (r : Byte) : Statement (.prn r) := fun m => ⟨rfl, rfl, by
  simp [Instr.wf, Instr.registerOperands], by simp [Instr.registerOperands, encode, Instr.operands]⟩

theorem push (r : Byte) : Statement (.push r) := fun m => ⟨rfl, rfl, by
  simp [Instr.wf, Instr.registerOperands], by simp [Instr.registerOperands, encode, Instr.operands]⟩

theorem pop (r : Byte) : Statement (.pop r) := fun m => ⟨rfl, rfl, by
  simp [Instr.wf, Instr.registerOperands], by simp [Instr.registerOperands, encode, Instr.operands]⟩

theorem call (r : Byte) : Statement (.call r) := fun m => ⟨rfl, rfl, by
  simp [Instr.wf, Instr.registerOperands], by simp [Instr.registerOperands, encode, Instr.operands]⟩

theorem jmp (r : Byte) : Statement (.jmp r) := fun m => ⟨rfl, rfl, by
  simp [Instr.wf, Instr.registerOperands], by simp [Instr.registerOperands, encode, Instr.operands]⟩

theorem jeq (r : Byte) : Statement (.jeq r) := fun m => ⟨rfl, rfl, by
  simp [Instr.wf, Instr.registerOperands], by simp [Instr.registerOperands, encode, Instr.operands]⟩

theorem jne (r : Byte) : Statement (.jne r) := fun m => ⟨rfl, rfl, by
  simp [Instr.wf, Instr.registerOperands], by simp [Instr.registerOperands, encode, Instr.operands]⟩

theorem ldi (r i : Byte) : Statement (.ldi r i) := fun m => ⟨rfl, rfl, by
  simp [Instr.wf, Instr.registerOperands], by simp [Instr.registerOperands, encode, Instr.operands]⟩

theorem add (a b : Byte) : Statement (.add a b) := fun m => ⟨rfl, rfl, by
  simp [Instr.wf, Instr.registerOperands], by simp [Instr.registerOperands, encode, Instr.operands]⟩

theorem mul (a b : Byte) : Statement (.mul a b) := fun m => ⟨rfl, rfl, by
  simp [Instr.wf, Instr.registerOperands], by simp [Instr.registerOperands, encode, Instr.operands]⟩

theorem cmp (a b : Byte) : Statement (.cmp a b) := fun m => ⟨rfl, rfl, by
  simp [Instr.wf, Instr.registerOperands], by simp [Instr.registerOperands, encode, Instr.operands]⟩

end Sys2Proof.Laws.EncodingShape
end

