-- ==== Sys2Proof/Laws/Step.lean ====
section
/-! SUPPORT. What a fetch and a cycle can do, said once; claims about steps are case analyses over these. -/

namespace Sys2Proof.Machine

variable {s t : State}

/-- What a successful fetch has read: the opcode byte at pc, then the operand bytes after it. -/
theorem fetch_ok {ir : Byte} {i : Instr} :
    fetch s = .ok (ir, i) ↔
      memRead s (s.pc : Int) = .ok ir ∧ mnemonicOf s.cfg.opcodes ir = some i.mnemonic ∧
        ∀ k v, i.operands[k]? = some v → memRead s ((s.pc : Int) + (k + 1 : Nat)) = .ok v := by
  simp [fetch, decodeFrom_ok]

/-- Why a fetch raises, in the order of `60_exceptions.md` R159. -/
theorem fetch_error {f : Fault} :
    fetch s = .error f ↔
      memRead s (s.pc : Int) = .error f ∨ ∃ ir, memRead s (s.pc : Int) = .ok ir ∧
        (mnemonicOf s.cfg.opcodes ir = none ∧ f = .illegalOpcode s.pc ir ∨
          (∃ x, mnemonicOf s.cfg.opcodes ir = some x) ∧
            (1 ≤ operandCount ir ∧ memRead s ((s.pc : Int) + 1) = .error f ∨
              2 ≤ operandCount ir ∧ (∃ v, memRead s ((s.pc : Int) + 1) = .ok v) ∧
                memRead s ((s.pc : Int) + 2) = .error f)) := by
  simp [fetch, decodeFrom_error]

/-- A RUNNING cycle that answers a next state has fetched an instruction and executed it. -/
theorem step_next (hs : s.status = .running) :
    step s = .next t ↔ ∃ ir i, fetch s = .ok (ir, i) ∧ exec i (s.loadIr ir) = .next t := by
  simp only [step, hs]
  cases h : fetch s with
  | ok p => obtain ⟨ir, i⟩ := p; simp
  | error f => simp

/-- A RUNNING cycle that raises has raised in its fetch or in the fetched instruction. -/
theorem step_fault (hs : s.status = .running) {f : Fault} :
    step s = .fault f ↔
      fetch s = .error f ∨ ∃ ir i, fetch s = .ok (ir, i) ∧ exec i (s.loadIr ir) = .fault f := by
  simp only [step, hs]
  cases h : fetch s with
  | ok p => obtain ⟨ir, i⟩ := p; simp
  | error f => simp

/-- The step of a fetched instruction is its execution. -/
theorem step_of_fetch (hs : s.status = .running) {ir : Byte} {i : Instr} (h : fetch s = .ok (ir, i)) :
    step s = exec i (s.loadIr ir) := by
  simp [step, hs, h]

theorem step_halted (hs : s.status = .halted) : step s = .next s := by
  simp [step, hs]

theorem step_faulted {f : Fault} (hs : s.status = .faulted f) : step s = .fault f := by
  simp [step, hs]

end Sys2Proof.Machine
end

