-- ==== Sys2Proof/Tests/Slice0.lean ====
section
/-! SUPPORT. The model's own tests: bytes and vectors of `95_test_vectors.md` and `30_encoding.md` (expected
results are the spec's, none is the model's own answer), one ill-formed term for each WellFormed check, and for
every statement with hypotheses concrete values that meet them together. -/

namespace Sys2Proof.Tests

open Sys2Proof.Machine Sys2Proof.Claims

/-! ### Small states -/

/-- A running default machine with the given registers, pc and memory. -/
def st (regs : Vector Byte 8) (pc : Nat) (mem : Memory) : State :=
  { State.reset with regs := regs, pc := pc, mem := mem }

/-- The same under `OOB_POLICY = wrap`. -/
def stWrap (regs : Vector Byte 8) (pc : Nat) (mem : Memory) : State :=
  { st regs pc mem with cfg := { Config.default with oob := .wrap } }

/-- `stWrap` with N = 16 cells. -/
def stWrap16 (regs : Vector Byte 8) (pc : Nat) (mem : Memory) : State :=
  { st regs pc mem with cfg := { Config.default with oob := .wrap, memSize := 16 } }

/-- `st` with N = 16 cells. -/
def stSmall (regs : Vector Byte 8) (pc : Nat) (mem : Memory) : State :=
  { st regs pc mem with cfg := { Config.default with memSize := 16 } }

/-- The next state of an outcome, if it is one. -/
def nextOf (o : Host.Outcome State Fault Refusal) : Option State :=
  match o with
  | .next t => some t
  | .fault _ => none
  | .refused _ => none

/-- The fault of an outcome, if it is one. -/
def faultOf (o : Host.Outcome State Fault Refusal) : Option Fault :=
  match o with
  | .next _ => none
  | .fault f => some f
  | .refused _ => none

/-- All registers 0 but the two given and SP. -/
def regs01 (r0 r1 sp : Byte) : Vector Byte 8 := #v[r0, r1, 0#8, 0#8, 0#8, 0#8, 0#8, sp]

/-! ### Words written out from `30_encoding.md` R62, R65 -/

theorem test_decode_f0 :
    decodeTableWord 8 0b00000001 = some .hlt ∧ decodeTableWord 8 0b00010001 = some .ret := by decide

theorem test_decode_fr_data :
    decodeTableWord 16 0b00000101_01000111 = some (.prn 5#8) ∧
    decodeTableWord 16 0b00000110_01000101 = some (.push 6#8) ∧
    decodeTableWord 16 0b11001000_01000110 = some (.pop 200#8) := by decide

theorem test_decode_fr_control :
    decodeTableWord 16 0b00000001_01010000 = some (.call 1#8) ∧
    decodeTableWord 16 0b00000010_01010100 = some (.jmp 2#8) ∧
    decodeTableWord 16 0b00000011_01010101 = some (.jeq 3#8) ∧
    decodeTableWord 16 0b00000100_01010110 = some (.jne 4#8) := by decide

theorem test_decode_frr_fri :
    decodeTableWord 24 0b00001000_00000001_10000010 = some (.ldi 1#8 8#8) ∧
    decodeTableWord 24 0b00000010_00000001_10100000 = some (.add 1#8 2#8) ∧
    decodeTableWord 24 0b00000010_00000001_10100010 = some (.mul 1#8 2#8) ∧
    decodeTableWord 24 0b00000010_00000001_10100111 = some (.cmp 1#8 2#8) := by decide

/-- V6 to V11: illegal bytes; and a list that ends inside an instruction. -/
theorem test_decode_refuses :
    decode OpcodeMap.default [0x00#8] = .error (.illegalOpcode 0x00#8) ∧
    decode OpcodeMap.default [0x02#8, 1#8] = .error (.illegalOpcode 0x02#8) ∧
    decode OpcodeMap.default [0x44#8, 1#8] = .error (.illegalOpcode 0x44#8) ∧
    decode OpcodeMap.default [0x83#8, 1#8, 1#8] = .error (.illegalOpcode 0x83#8) ∧
    decode OpcodeMap.default [0xC0#8] = .error (.illegalOpcode 0xC0#8) ∧
    decode OpcodeMap.default [0xFF#8] = .error (.illegalOpcode 0xFF#8) ∧
    decode OpcodeMap.default [] = .error (.truncated 0) ∧
    decode OpcodeMap.default [0x82#8, 1#8] = .error (.truncated 2) := by decide

theorem test_encode : encode OpcodeMap.default (.ldi 0#8 8#8) = [0x82#8, 0x00#8, 0x08#8] ∧
    encode OpcodeMap.default (.call 1#8) = [0x50#8, 0x01#8] ∧ encode OpcodeMap.default .ret = [0x11#8] := by decide

/-- Opcode assignments that break R63: two equal values; a count that is not the source's. -/
theorem test_opcode_constraints :
    ¬ { OpcodeMap.default with ret := 0x01#8 }.wf ∧ ¬ { OpcodeMap.default with ldi := 0x42#8 }.wf ∧
    { OpcodeMap.default with hlt := 0x00#8 }.wf := by decide

theorem test_config_constraints :
    ¬ { Config.default with memSize := 0 }.wf ∧ ¬ { Config.default with memSize := 257 }.wf := by decide

/-! ### WellFormed: an ill-formed term for each check -/

theorem test_wf_one_register :
    Instr.wf (.prn 8#8) = false ∧ Instr.wf (.push 8#8) = false ∧ Instr.wf (.pop 9#8) = false ∧
    Instr.wf (.call 255#8) = false ∧ Instr.wf (.jmp 8#8) = false ∧ Instr.wf (.jeq 8#8) = false ∧
    Instr.wf (.jne 8#8) = false ∧ Instr.wf (.ldi 8#8 0#8) = false := by decide

theorem test_wf_two_registers :
    Instr.wf (.add 8#8 0#8) = false ∧ Instr.wf (.add 0#8 8#8) = false ∧ Instr.wf (.mul 8#8 0#8) = false ∧
    Instr.wf (.mul 0#8 8#8) = false ∧ Instr.wf (.cmp 8#8 0#8) = false ∧ Instr.wf (.cmp 0#8 8#8) = false := by
  decide

theorem test_wf_accepts : Instr.wf (.ldi 7#8 255#8) = true ∧ Instr.wf (.add 7#8 0#8) = true ∧
    Instr.wf .hlt = true ∧ Instr.wf .ret = true := by decide

/-! ### Vectors of `95_test_vectors.md`, one step each -/

/-- V20, V23, and V91: at the top of memory pc becomes N. -/
theorem test_ldi :
    (nextOf (step (st (regs01 0 0 0xFF) 0 [(0, 0x82), (2, 8)]))).map (fun t => (t.readReg 0, t.pc)) = some (8#8, 3) ∧
    (nextOf (step (st (regs01 0 0 0xFF) 0 [(0, 0x82), (1, 7), (2, 0x80)]))).map State.sp = some 0x80#8 ∧
    (nextOf (step (st (regs01 0 0 0xFF) 0xFD [(0xFD, 0x82), (0xFF, 5)]))).map (fun t => (t.readReg 0, t.pc)) =
      some (5#8, 0x100) := by decide

/-- V25, V27, V28. -/
theorem test_prn :
    (nextOf (step (st (regs01 72 0 0xFF) 0 [(0, 0x47)]))).map (·.out) = some [72#8] ∧
    (nextOf (step (st (regs01 0 0 0xFE) 0 [(0, 0x47), (1, 7)]))).map (·.out) = some [254#8] ∧
    faultOf (step (st (regs01 0 0 0xFE) 0 [(0, 0x47), (1, 200)])) = some (.regOutOfRange 0 200#8) := by decide

/-- V30, V32, V34 and V50. -/
theorem test_add :
    (nextOf (step (st (regs01 5 7 0xFF) 0 [(0, 0xA0), (2, 1)]))).map (fun t => (t.readReg 0, t.readReg 1)) =
      some (12#8, 7#8) ∧
    (nextOf (step (st (regs01 200 100 0xFF) 0 [(0, 0xA0), (2, 1)]))).map (·.readReg 0) = some 44#8 ∧
    (nextOf (step (st (regs01 130 0 0xFF) 0 [(0, 0xA0)]))).map (·.readReg 0) = some 4#8 ∧
    faultOf (step (st (regs01 1 0 0xFF) 0 [(0, 0xA0), (1, 9)])) = some (.regOutOfRange 0 9#8) := by decide

/-- V36, V38, V40, V42. -/
theorem test_mul :
    (nextOf (step (st (regs01 8 9 0xFF) 0 [(0, 0xA2), (2, 1)]))).map (·.readReg 0) = some 72#8 ∧
    (nextOf (step (st (regs01 255 255 0xFF) 0 [(0, 0xA2), (2, 1)]))).map (·.readReg 0) = some 1#8 ∧
    (nextOf (step (st (regs01 3 86 0xFF) 0 [(0, 0xA2), (2, 1)]))).map (·.readReg 0) = some 2#8 ∧
    (nextOf (step (st (regs01 20 0 0xFF) 0 [(0, 0xA2)]))).map (·.readReg 0) = some 144#8 := by decide

/-- V43, V44, V46, V47, V51. -/
theorem test_cmp :
    (nextOf (step (st (regs01 5 5 0xFF) 0 [(0, 0xA7), (2, 1)]))).map (·.fl) = some ⟨true, false, false⟩ ∧
    (nextOf (step (st (regs01 3 4 0xFF) 0 [(0, 0xA7), (2, 1)]))).map (·.fl) = some ⟨false, true, false⟩ ∧
    (nextOf (step (st (regs01 0 255 0xFF) 0 [(0, 0xA7), (2, 1)]))).map (·.fl) = some ⟨false, true, false⟩ ∧
    (nextOf (step (st (regs01 128 127 0xFF) 0 [(0, 0xA7), (2, 1)]))).map (·.fl) = some ⟨false, false, true⟩ ∧
    faultOf (step (st (regs01 0 0 0xFF) 0 [(0, 0xA7), (1, 9), (2, 10)])) = some (.regOutOfRange 0 9#8) := by
  decide

/-- V60, V62, V64 (both policies). -/
theorem test_push :
    (nextOf (step (st (regs01 42 0 0xFF) 0 [(0, 0x45)]))).map (fun t => (t.sp, t.mem.read 0xFE, t.pc)) =
      some (0xFE#8, 42#8, 2) ∧
    (nextOf (step (st (regs01 0 0 0xFF) 0 [(0, 0x45), (1, 7)]))).map (fun t => (t.sp, t.mem.read 0xFE)) =
      some (0xFE#8, 0xFE#8) ∧
    faultOf (step (st (regs01 9 0 0) 0 [(0, 0x45)])) = some (.memOutOfBounds 0 (-1)) ∧
    (nextOf (step (stWrap (regs01 9 0 0) 0 [(0, 0x45)]))).map (fun t => (t.sp, t.mem.read 0xFF)) =
      some (0xFF#8, 9#8) := by decide

/-- V61, V63, V65 (both policies). -/
theorem test_pop :
    (nextOf (step (st (regs01 0 0 0xFE) 0 [(0, 0x46), (1, 1), (0xFE, 42)]))).map (fun t => (t.readReg 1, t.sp)) =
      some (42#8, 0xFF#8) ∧
    (nextOf (step (st (regs01 0 0 0xFE) 0 [(0, 0x46), (1, 7), (0xFE, 0x40)]))).map State.sp = some 0x41#8 ∧
    faultOf (step (st (regs01 0 0 0xFF) 0 [(0, 0x46)])) = some (.memOutOfBounds 0 256) ∧
    (nextOf (step (stWrap (regs01 0 0 0xFF) 0 [(0, 0x46), (0xFF, 6)]))).map (fun t => (t.readReg 0, t.sp)) =
      some (6#8, 0#8) := by decide

/-- V70, V71, V72 (both policies). -/
theorem test_call :
    (nextOf (step (st (regs01 0 0x40 0xFF) 0x10 [(0x10, 0x50), (0x11, 1)]))).map
      (fun t => (t.mem.read 0xFE, t.sp, t.pc)) = some (0x12#8, 0xFE#8, 0x40) ∧
    (nextOf (step (st (regs01 0 0 0xFF) 0x10 [(0x10, 0x50), (0x11, 7)]))).map
      (fun t => (t.mem.read 0xFE, t.pc)) = some (0x12#8, 0xFE) ∧
    faultOf (step (st (regs01 0 0 0xFF) 0xFE [(0xFE, 0x50), (0xFF, 1)])) = some (.memOutOfBounds 0xFE 256) ∧
    (nextOf (step (stWrap (regs01 0 0 0xFF) 0xFE [(0xFE, 0x50), (0xFF, 1)]))).map
      (fun t => (t.mem.read 0xFE, t.sp, t.pc)) = some (0#8, 0xFE#8, 0) := by decide

/-- V73, V74 (both policies). -/
theorem test_ret :
    (nextOf (step (st (regs01 0 0 0xFE) 0 [(0, 0x11), (0xFE, 0x12)]))).map (fun t => (t.pc, t.sp)) =
      some (0x12, 0xFF#8) ∧
    faultOf (step (st (regs01 0 0 0xFF) 0 [(0, 0x11)])) = some (.memOutOfBounds 0 256) ∧
    (nextOf (step (stWrap (regs01 0 0 0xFF) 0 [(0, 0x11), (0xFF, 9)]))).map (fun t => (t.pc, t.sp)) =
      some (9, 0#8) := by decide

/-- V76, V77. -/
theorem test_jmp :
    (nextOf (step (st (regs01 0 0x20 0xFF) 0 [(0, 0x54), (1, 1)]))).map (·.pc) = some 0x20 ∧
    (nextOf (step (st (regs01 0 0x20 0xFF) 0x20 [(0x20, 0x54), (0x21, 1)]))).map (·.pc) = some 0x20 := by decide

/-- V78, V79, V83, V84 (both policies). -/
theorem test_jeq :
    (nextOf (step ((st (regs01 0 0x30 0xFF) 9 [(9, 0x55), (10, 1)]).setFlags ⟨true, false, false⟩))).map (·.pc) =
      some 0x30 ∧
    (nextOf (step (st (regs01 0 0x30 0xFF) 9 [(9, 0x55), (10, 1)]))).map (·.pc) = some 0x0B ∧
    faultOf (step (st (regs01 0 0 0xFF) 0 [(0, 0x55), (1, 8)])) = some (.regOutOfRange 0 8#8) ∧
    (nextOf (step (st (regs01 0 0 0xFF) 0xFE [(0xFE, 0x55), (0xFF, 1)]))).map (·.pc) = some 0x100 ∧
    (nextOf (step (stWrap (regs01 0 5 0xFF) 0xFE [(0xFE, 0x55), (0xFF, 1)]))).map (·.pc) = some 0 := by decide

/-- V80, V81, V82. -/
theorem test_jne :
    (nextOf (step ((st (regs01 0 0x30 0xFF) 9 [(9, 0x56), (10, 1)]).setFlags ⟨false, true, false⟩))).map (·.pc) =
      some 0x30 ∧
    (nextOf (step ((st (regs01 0 0x30 0xFF) 9 [(9, 0x56), (10, 1)]).setFlags ⟨true, false, false⟩))).map (·.pc) =
      some 0x0B ∧
    (nextOf (step (st (regs01 0 0x30 0xFF) 9 [(9, 0x56), (10, 1)]))).map (·.pc) = some 0x30 := by decide

/-- V85, and no state changes after it (`10_state.md` R31). -/
theorem test_hlt :
    (nextOf (step (st (regs01 0 0 0xFF) 0x0B [(0x0B, 1)]))).map (fun t => (t.status, t.pc, t.status.code)) =
      some (.halted, 0x0B, some 0) ∧
    (cycles 3 (st (regs01 0 0 0xFF) 0x0B [(0x0B, 1)])).pc = 0x0B := by decide

/-- V12, V90 (both policies), V84 and V91 after the advance: which fault a fetch reports. -/
theorem test_fetch_bounds :
    faultOf (step (st (regs01 0 0 0xFF) 0xFF [(0xFF, 0xC0)])) = some (.illegalOpcode 0xFF 0xC0#8) ∧
    faultOf (step (st (regs01 0 0 0xFF) 0xFF [(0xFF, 0x47)])) = some (.memOutOfBounds 0xFF 256) ∧
    (nextOf (step (stWrap (regs01 0 33 0xFF) 0xFF [(0, 1), (0xFF, 0x47)]))).map (·.out) = some [33#8] ∧
    faultOf (step (st (regs01 0 0 0xFF) 0x100 [])) = some (.memOutOfBounds 0x100 256) := by decide

/-- V24: a fault leaves registers and pc as they were; the status code is 4. -/
theorem test_fault_entry :
    (cycle (st (regs01 3 0 0xFF) 0 [(0, 0x82), (1, 8), (2, 1)])).status = .faulted (.regOutOfRange 0 8#8) ∧
    (cycle (st (regs01 3 0 0xFF) 0 [(0, 0x82), (1, 8), (2, 1)])).regs = regs01 3 0 0xFF ∧
    (cycle (st (regs01 3 0 0xFF) 0 [(0, 0x82), (1, 8), (2, 1)])).status.code = some 4 := by decide

/-- `10_state.md` R27: E is bit 0, G bit 1, L bit 2. -/
theorem test_flag_layout :
    Flags.word ⟨true, false, false⟩ = 0b001#3 ∧ Flags.word ⟨false, false, true⟩ = 0b010#3 ∧
    Flags.word ⟨false, true, false⟩ = 0b100#3 := by decide

/-- An image of N bytes loads; one of N + 1 is refused (`70_reset_and_hazards.md` R183). -/
theorem test_launch :
    ((launch { Config.default with memSize := 2 } (Vector.replicate 7 0#8) [0x47#8, 7#8]).map
      (fun s => (s.mem, s.pc, s.status))) = .ok ([(0, 0x47#8), (1, 7#8)], 0, .running) ∧
    launch { Config.default with memSize := 2 } (Vector.replicate 7 0#8) [1#8, 0#8, 0#8] =
      .error (.imageTooLong 3 2) := by decide

/-- A table word placed in the reset machine is the instruction its next step runs. -/
theorem test_with_fetch_word :
    (nextOf (step (State.reset.withFetchWord 24 0b00001001_00000010_10000010))).map (·.readReg 2) = some 9#8 ∧
    (nextOf (step (State.reset.withFetchWord 16 0b00000111_01000111))).map (·.out) = some [0xFF#8] ∧
    (nextOf (Sys2Proof.core.step (State.reset.withFetchWord 8 1))).map (·.status) = some .halted := by decide

/-! ### Witnesses: values that meet the hypotheses of each statement, clause by clause -/

theorem witness_LaunchPlacesTheImageAtZero :
    [1#8, 2#8].length ≤ { Config.default with memSize := 2 }.memSize ∧
    { Config.default with memSize := 2 }.memSize < [1#8, 2#8, 3#8].length := by decide

theorem witness_DecodeOfEncodeIsTheInstruction :
    OpcodeMap.default.wf ∧ { OpcodeMap.default with hlt := 0x3F#8, cmp := 0xBF#8 }.wf := by decide

theorem witness_DecodedBytesAreTheEncoding :
    decode OpcodeMap.default [0xA7#8, 255#8, 8#8, 1#8] = .ok (.cmp 255#8 8#8, [1#8]) := by decide

theorem witness_OpcodeByteSelectsTheInstruction :
    (st (regs01 0 0 0xFF) 255 [(255, 1)]).cfg.wf ∧ (st (regs01 0 0 0xFF) 255 [(255, 1)]).status = .running ∧
    memRead (st (regs01 0 0 0xFF) 255 [(255, 1)]) 255 = .ok 1#8 ∧ OpcodeMap.default.byte .hlt = 1#8 := by decide

theorem witness_OpcodeByteSelectsTheInstruction_illegal :
    memRead (st (regs01 0 0 0xFF) 255 []) 255 = .ok 0#8 ∧ ∀ x, OpcodeMap.default.byte x ≠ 0#8 :=
  ⟨by decide, fun x => by cases x <;> decide⟩

theorem witness_IllegalBytesNumber243AndFault :
    (st (regs01 0 0 0xFF) 255 [(255, 0xC0)]).status = .running ∧
    memRead (st (regs01 0 0 0xFF) 255 [(255, 0xC0)]) 255 = .ok 0xC0#8 ∧
    ∀ x, (st (regs01 0 0 0xFF) 255 [(255, 0xC0)]).cfg.opcodes.byte x ≠ 0xC0#8 :=
  ⟨by decide, by decide, fun x => by cases x <;> decide⟩

theorem witness_TopTwoBitsGiveTheLength :
    OpcodeMap.default.wf ∧ operandCount 0xC0#8 = 3 ∧ operandCount 0xFF#8 = 3 := by decide

theorem witness_StepRunsTheDecodedInstruction :
    (st (regs01 0 0 0xFF) 253 [(253, 0x82), (255, 5)]).status = .running ∧
    decode OpcodeMap.default [0x82#8, 0#8, 5#8] = .ok (.ldi 0#8 5#8, []) ∧
    memRead (st (regs01 0 0 0xFF) 253 [(253, 0x82), (255, 5)]) 253 = .ok 0x82#8 ∧
    memRead (st (regs01 0 0 0xFF) 253 [(253, 0x82), (255, 5)]) 254 = .ok 0#8 ∧
    memRead (st (regs01 0 0 0xFF) 253 [(253, 0x82), (255, 5)]) 255 = .ok 5#8 := by decide

theorem witness_FetchReadsTheByteAtPc :
    (nextOf (step (st (regs01 0 0 0xFF) 255 [(255, 1)]))).isSome ∧
    (st (regs01 0 0 0xFF) 256 []).cfg.oob = .fault ∧
    (st (regs01 0 0 0xFF) 256 []).cfg.memSize ≤ (st (regs01 0 0 0xFF) 256 []).pc ∧
    (stWrap (regs01 0 0 0xFF) 255 [(255, 1)]).cfg.oob = .wrap := by decide

/-- A state under `wrap` at the last cell that meets the invariant. -/
theorem witness_inv_wrap : (stWrap (regs01 0 0 0xFF) 255 [(255, 1)]).Inv :=
  ⟨by decide, by decide, by decide, by show 255 < 256; decide, by decide⟩

theorem witness_OperandFetchFollowsTheOpcode :
    fetch (st (regs01 0 0 0xFF) 253 [(253, 0x82), (255, 5)]) = .ok (0x82#8, .ldi 0#8 5#8) ∧
    fetch (stWrap (regs01 0 0 0xFF) 255 [(0, 1), (1, 2), (255, 0x82)]) = .ok (0x82#8, .ldi 1#8 2#8) ∧
    memRead (st (regs01 0 0 0xFF) 255 [(255, 0x47)]) 255 = .ok 0x47#8 ∧
    mnemonicOf OpcodeMap.default 0x47#8 = some .prn ∧ 1 ≤ operandCount 0x47#8 ∧
    memRead (st (regs01 0 0 0xFF) 254 [(254, 0x82)]) 254 = .ok 0x82#8 ∧
    mnemonicOf OpcodeMap.default 0x82#8 = some .ldi ∧ 2 ≤ operandCount 0x82#8 := by decide

theorem witness_DefaultAdvanceMovesPastTheInstruction :
    fetch (st (regs01 0 0 0xFF) 253 [(253, 0x82)]) = .ok (0x82#8, .ldi 0#8 0#8) ∧
    getsDefaultAdvance (Instr.ldi 0#8 0#8).mnemonic = true ∧
    (nextOf (step (st (regs01 0 0 0xFF) 253 [(253, 0x82)]))).map (·.pc) = some 256 ∧
    fetch (stWrap (regs01 0 0 0xFF) 253 [(253, 0x82)]) = .ok (0x82#8, .ldi 0#8 0#8) ∧
    (nextOf (step (stWrap (regs01 0 0 0xFF) 253 [(253, 0x82)]))).isSome := by decide

/-- For LDI, PRN, ADD, MUL, CMP, JMP, JEQ, JNE and LDI then PRN: the register operands at both ends. -/
theorem witness_register_operands : registerExists 0#8 ∧ registerExists 7#8 := by decide

/-- PUSH: SP = 1 and SP = N under `fault`, SP = 0 under `wrap`; memory canonical. -/
theorem witness_PushStoresBelowTheStackPointer :
    registerExists 0#8 ∧ (st (regs01 9 0 1) 0 []).mem.wf ∧ PushFits (st (regs01 9 0 1) 0 []) ∧
    PushFits (stSmall (regs01 9 0 16) 0 []) ∧ PushFits (stWrap (regs01 9 0 0) 0 [(255, 3)]) ∧
    (stWrap (regs01 9 0 0) 0 [(255, 3)]).mem.wf ∧ registerExists 7#8 := by decide

/-- POP: the last SP whose increment stays inside; r7 with the largest byte; `wrap` at the top. -/
theorem witness_PopLoadsFromTheStackPointer :
    registerExists 1#8 ∧ PopFits 1#8 (st (regs01 0 0 254) 0 []) ∧
    PopFits 7#8 (st (regs01 0 0 255) 0 [(255, 254)]) ∧ PopFits 1#8 (stWrap (regs01 0 0 255) 0 []) ∧
    registerExists 7#8 := by decide

/-- CALL: pc + 2 the last cell with SP = 1; `wrap` at the top; r7. -/
theorem witness_CallPushesPcPlusTwoAndJumps :
    registerExists 1#8 ∧ (st (regs01 0 4 1) 253 []).cfg.wf ∧ (st (regs01 0 4 1) 253 []).mem.wf ∧
    PushFits (st (regs01 0 4 1) 253 []) ∧ (st (regs01 0 4 1) 253 []).pc + 2 < 256 ∧
    (stWrap (regs01 0 4 0) 255 []).cfg.wf ∧ PushFits (stWrap (regs01 0 4 0) 255 []) ∧
    (stWrap (regs01 0 4 0) 255 []).cfg.oob = .wrap ∧ registerExists 7#8 := by decide

theorem witness_RetPopsThePc :
    ((st (regs01 0 0 254) 0 []).cfg.oob = .fault →
      (st (regs01 0 0 254) 0 []).sp.toNat + 1 < (st (regs01 0 0 254) 0 []).cfg.memSize) ∧
    (stWrap (regs01 0 0 255) 0 []).cfg.oob = .wrap := by decide

theorem witness_BadRegisterOperandFaults :
    (Instr.add 8#8 9#8).registerOperands.find? (fun x => decide (8 ≤ x.toNat)) = some 8#8 ∧
    (Instr.cmp 7#8 255#8).registerOperands.find? (fun x => decide (8 ≤ x.toNat)) = some 255#8 ∧
    (Instr.jeq 8#8).registerOperands.find? (fun x => decide (8 ≤ x.toNat)) = some 8#8 := by decide

theorem witness_AddressCheckFollowsThePolicy :
    (st (regs01 0 0 0) 0 []).cfg.oob = .fault ∧ (0 : Int) ≤ 255 ∧
    (255 : Int) < (st (regs01 0 0 0) 0 []).cfg.memSize ∧ (-1 : Int) < 0 ∧
    ((st (regs01 0 0 0) 0 []).cfg.memSize : Int) ≤ 256 ∧ (stWrap (regs01 0 0 0) 0 []).cfg.oob = .wrap ∧
    1 ≤ (stWrap (regs01 0 0 0) 0 []).cfg.memSize := by decide

theorem witness_StackPointerCheckFollowsThePolicy :
    (st (regs01 0 0 0) 0 []).cfg.wf ∧ (stSmall (regs01 0 0 0) 0 []).cfg.wf ∧
    (15 : Int) < (stSmall (regs01 0 0 0) 0 []).cfg.memSize ∧
    ((stSmall (regs01 0 0 0) 0 []).cfg.memSize : Int) ≤ 16 ∧ (stWrap (regs01 0 0 0) 0 []).cfg.wf := by decide

theorem witness_MemoryAccessMovesOneByte :
    (st (regs01 0 0 0) 0 [(255, 7)]).mem.wf ∧ checkAddr (st (regs01 0 0 0) 0 [(255, 7)]) 255 = .ok 255 ∧
    checkAddr (st (regs01 0 0 0) 0 [(255, 7)]) 256 = .error (.memOutOfBounds 0 256) := by decide

/-- Each clause: SP = 0; SP above N; pc + 2 = N; and CALL's SP clauses with pc + 2 the last cell. -/
theorem witness_PushAndCallFaultOutsideMemory :
    registerExists 0#8 ∧ (st (regs01 0 0 0) 253 []).cfg.oob = .fault ∧ (st (regs01 0 0 0) 253 []).sp.toNat = 0 ∧
    (st (regs01 0 0 0) 253 []).pc + 2 < (st (regs01 0 0 0) 253 []).cfg.memSize ∧
    (stSmall (regs01 0 0 17) 13 []).cfg.memSize < (stSmall (regs01 0 0 17) 13 []).sp.toNat ∧
    (stSmall (regs01 0 0 17) 13 []).pc + 2 < (stSmall (regs01 0 0 17) 13 []).cfg.memSize ∧
    (st (regs01 0 0 0) 254 []).cfg.memSize ≤ (st (regs01 0 0 0) 254 []).pc + 2 := by decide

/-- Each clause: SP = N; SP = N − 1 for POP and RET; the popped r7 at N − 1. -/
theorem witness_PopAndRetFaultOutsideMemory :
    registerExists 0#8 ∧ (stSmall (regs01 0 0 16) 0 []).cfg.memSize ≤ (stSmall (regs01 0 0 16) 0 []).sp.toNat ∧
    (st (regs01 0 0 255) 0 []).sp.toNat < (st (regs01 0 0 255) 0 []).cfg.memSize ∧
    (st (regs01 0 0 255) 0 []).cfg.memSize ≤ popBase 0#8 (st (regs01 0 0 255) 0 []) + 1 ∧
    (st (regs01 0 0 3) 0 [(3, 255)]).cfg.memSize ≤ popBase 7#8 (st (regs01 0 0 3) 0 [(3, 255)]) + 1 ∧
    (st (regs01 0 0 255) 0 []).cfg.memSize ≤ (st (regs01 0 0 255) 0 []).sp.toNat + 1 := by decide

theorem witness_WrapNeverRaisesMemOutOfBounds :
    (stWrap (regs01 0 0 0) 255 []).status = .running ∧ (stWrap (regs01 0 0 0) 255 []).cfg.oob = .wrap := by
  decide

theorem witness_FaultsArePrecise :
    (st (regs01 0 0 0) 0 [(0, 0x45)]).status = .running ∧
    faultOf (step (st (regs01 0 0 0) 0 [(0, 0x45)])) = some (.memOutOfBounds 0 (-1)) := by decide

/-- Each clause: pc = N; an illegal byte at N − 1; PRN at N − 1; LDI at N − 2; LDI r8 ending at N − 1. -/
theorem witness_FirstFailingCheckDecides :
    (st (regs01 0 0 0) 256 []).status = .running ∧ (st (regs01 0 0 0) 256 []).cfg.memSize ≤ 256 ∧
    mnemonicOf OpcodeMap.default ((st (regs01 0 0 0) 255 [(255, 0xC0)]).mem.read 255) = none ∧
    mnemonicOf OpcodeMap.default ((st (regs01 0 0 0) 255 [(255, 0x47)]).mem.read 255) = some .prn ∧
    mnemonicOf OpcodeMap.default ((st (regs01 0 0 0) 254 [(254, 0x82)]).mem.read 254) = some .ldi ∧
    mnemonicOf OpcodeMap.default ((st (regs01 0 0 0) 253 [(253, 0x82), (254, 8)]).mem.read 253) = some .ldi ∧
    (assemble .ldi ((st (regs01 0 0 0) 253 [(253, 0x82), (254, 8)]).mem.read 254) 0#8).registerOperands.find?
      (fun y => decide (8 ≤ y.toNat)) = some 8#8 := by decide

theorem witness_StoppedCoreNeverChanges :
    (State.reset.halt).status ≠ .running ∧
    (State.reset.enterFault (.illegalOpcode 0 0#8)).status ≠ .running := by decide

theorem witness_FlagsAreWrittenByCmpAndReadByJumps :
    (nextOf (exec (.cmp 0#8 1#8) State.reset)).isSome ∧ (nextOf (exec (.jeq 0#8) State.reset)).isSome ∧
    (faultOf (exec (.jeq 8#8) State.reset)).isSome := by decide

theorem witness_OnlyPushAndCallWriteMemory :
    (nextOf (exec (.pop 0#8) (st (regs01 0 0 3) 0 []))).isSome ∧
    (nextOf (exec (.push 0#8) (st (regs01 9 0 1) 0 []))).map State.sp = some 0#8 ∧
    checkAddr (st (regs01 9 0 1) 0 []) 0 = .ok 0 ∧ (st (regs01 9 0 1) 0 []).mem.wf := by decide

theorem witness_OutputOnlyGrowsByPrn :
    fetch (st (regs01 0 0 0xFF) 254 [(254, 0x47), (255, 7)]) = .ok (0x47#8, .prn 7#8) ∧
    (nextOf (step (st (regs01 0 0 0xFF) 254 [(254, 0x47), (255, 7)]))).isSome ∧
    fetch (st (regs01 0 0 0xFF) 254 [(254, 0x54), (255, 7)]) = .ok (0x54#8, .jmp 7#8) ∧
    (nextOf (step (st (regs01 0 0 0xFF) 254 [(254, 0x54), (255, 7)]))).isSome := by decide

theorem witness_OnlyHltEndsTheLoop :
    fetch (st (regs01 0 0 0xFF) 255 [(255, 1)]) = .ok (1#8, .hlt) ∧
    (nextOf (step (st (regs01 0 0 0xFF) 255 [(255, 1)]))).isSome ∧
    fetch (st (regs01 0 0 3) 255 [(255, 0x11)]) = .ok (0x11#8, .ret) ∧
    (nextOf (step (st (regs01 0 0 3) 255 [(255, 0x11)]))).isSome := by decide

theorem witness_RegistersWrittenAreThoseOfTheTable :
    (nextOf (exec (.pop 1#8) (st (regs01 0 0 3) 0 []))).isSome ∧ (0 : Fin 8).val ∉ registersWritten (.pop 1#8) := by
  decide

/-- A register neither read nor written, one written but not read, and a not-taken jump's register. -/
theorem witness_RegistersReadAreThoseOfTheTable :
    (0 : Fin 8).val ∉ registersRead false (.push 1#8) ∧ (1 : Fin 8).val ∉ registersRead false (.pop 1#8) ∧
    (1 : Fin 8).val ∉ registersRead false (.jeq 1#8) ∧
    (nextOf (exec (.jeq 1#8) (st (regs01 0 0 3) 0 []))).isSome ∧
    (faultOf (exec (.push 1#8) (st (regs01 0 0 0) 0 []))).isSome := by decide

theorem witness_InstructionRegisterIsInternal :
    (st (regs01 0 0 0xFF) 255 [(255, 1)]).status = .running ∧
    (nextOf (step (st (regs01 0 0 0xFF) 255 [(255, 1)]))).map (·.ir) = some 1#8 := by decide

/-- A state at the top of memory under `fault` that meets the invariant and steps to pc = N. -/
theorem witness_StepKeepsTheInvariant :
    (st (regs01 0 0 0xFF) 253 [(253, 0x82), (255, 5)]).Inv ∧
    (nextOf (step (st (regs01 0 0 0xFF) 253 [(253, 0x82), (255, 5)]))).map (·.pc) = some 256 :=
  ⟨⟨by decide, by decide, by decide, .inl (by decide), by decide⟩, by decide⟩

theorem witness_InvariantHoldsAtReset :
    Config.default.wf ∧ { Config.default with memSize := 1, spInit := 0xF4#8, oob := .wrap }.wf := by decide

theorem witness_EveryReachableStateMeetsTheInvariant :
    Config.default.wf ∧ (launch Config.default (Vector.replicate 7 1#8) [1#8]).map (·.mem) = .ok [(0, 1#8)] := by
  decide

theorem witness_MemoriesThatReadAlikeAreEqual :
    Memory.wf [(0, 1#8), (255, 2#8)] ∧ Memory.wf (Memory.write [(0, 1#8)] 255 2#8) ∧
    ∀ a, Memory.read [(0, 1#8), (255, 2#8)] a = Memory.read (Memory.write [(0, 1#8)] 255 2#8) a :=
  ⟨by decide, by decide, fun _ => rfl⟩

/-- SP = N − 1 under `fault`; SP = 0 under `wrap`. -/
theorem witness_PushThenPopCopiesTheValue :
    (st (regs01 5 0 255) 0 []).mem.wf ∧ (st (regs01 5 0 255) 0 []).sp.toNat < 256 ∧
    (nextOf (exec (.push 0#8) (st (regs01 5 0 255) 0 []))).isSome ∧
    (nextOf (exec (.push 0#8) (stWrap (regs01 5 0 0) 0 []))).isSome ∧ registerExists 1#8 := by decide

/-- A CALL, and the state right after it as the state before the RET: SP = N − 1 under `fault`; under `wrap`
with N = 16, an SP beyond memory, where Addr names cell 3. -/
theorem witness_CallThenRetResumesAfterTheCall :
    ((st (regs01 0 4 255) 253 []).cfg.wf ∧ (st (regs01 0 4 255) 253 []).mem.wf ∧
      (st (regs01 0 4 255) 253 []).sp.toNat < 256 ∧
      (nextOf (exec (.call 1#8) (st (regs01 0 4 255) 253 []))).map (fun t => (t.sp, t.mem.read 254)) =
        some (254#8, 255#8)) ∧
    ((stWrap16 (regs01 0 4 0xF4) 15 []).cfg.wf ∧ (stWrap16 (regs01 0 4 0xF4) 15 []).mem.wf ∧
      (nextOf (exec (.call 1#8) (stWrap16 (regs01 0 4 0xF4) 15 []))).map (fun t => (t.sp, t.mem.read 3, t.pc)) =
        some (0xF3#8, 1#8, 4)) := by decide

theorem witness_CmpThenConditionalJump :
    registerExists 0#8 ∧ registerExists 1#8 ∧ registerExists 7#8 ∧
    (nextOf (exec (.cmp 0#8 1#8) (st (regs01 5 5 0xFF) 0 []))).isSome ∧
    (nextOf (exec (.cmp 0#8 1#8) (st (regs01 5 6 0xFF) 0 []))).isSome := by decide

/-- P6 of `95_test_vectors.md`: PUSH r0 at 6 with SP = 9 and r0 = OPCODE_HLT stores where pc goes next. PUSH r7
there stores 8, no opcode; CALL r1 to 8 stores its return address there, by 9 the opcode byte of RET. -/
theorem witness_StoredByteIsFetchedNext :
    (st (regs01 1 0 9) 6 [(6, 0x45)]).cfg.wf ∧ (st (regs01 1 0 9) 6 [(6, 0x45)]).mem.wf ∧
    (nextOf (exec (.push 0#8) (st (regs01 1 0 9) 6 [(6, 0x45)]))).map
      (fun t => (t.pc, t.sp, t.readReg 0)) = some (8, 8#8, Config.default.opcodes.hlt) ∧
    (nextOf (exec (.push 7#8) (st (regs01 1 0 9) 6 [(6, 0x45)]))).map
      (fun t => (t.pc, t.sp, t.mem.read 8)) = some (8, 8#8, 8#8) ∧
    (nextOf (exec (.call 1#8) (st (regs01 0 8 9) 15 []))).map
      (fun t => (t.pc, t.sp, t.mem.read 8)) = some (8, 8#8, Config.default.opcodes.ret) := by decide

end Sys2Proof.Tests
end

-- Reset and the output: what reset leaves in FL, memory and out, and which instruction appends to out.
namespace Sys2Proof.Proofs

open Sys2Proof Sys2Proof.Machine Sys2Proof.Claims

section Reset

variable (cfg : Config) (draws : Vector Byte 7)

@[simp] theorem resetWith_fl : (State.resetWith cfg draws).fl = ⟨false, false, false⟩ := rfl

@[simp] theorem resetWith_mem : (State.resetWith cfg draws).mem = [] := rfl

@[simp] theorem resetWith_out : (State.resetWith cfg draws).out = [] := rfl

end Reset

section Output

variable {s t : State}

/-- PRN's whole effect on the output (`41_data.md` R101). -/
theorem exec_prn_out {r : Byte} (hr : registerExists r) (h : exec (.prn r) s = .next t) :
    t.out = s.out ++ [s.readReg (regOf r hr)] := by
  obtain ⟨k, hk, rfl⟩ := execPrn_next.mp h
  have hreg : k = regOf r hr := Fin.ext (checkReg_ok.mp hk).symm
  simp [hreg]

/-- PRN is the only instruction that writes the output (`10_state.md` R32). -/
theorem exec_out_of_not_prn {i : Instr} (hi : i.mnemonic ≠ .prn) (h : exec i s = .next t) :
    t.out = s.out := by
  cases i <;> simp only [exec, execHlt_next, execRet_next, execPush_next, execPop_next, execCall_next,
    execJmp_next, execJeq_next, execJne_next, execLdi_next, execAdd_next, execMul_next, execCmp_next] at h
  case prn => exact absurd rfl hi
  case hlt => subst h; rfl
  case ret => obtain ⟨_, _, -, -, rfl⟩ := h; rfl
  case push | pop => obtain ⟨_, _, _, -, -, -, rfl⟩ := h; rfl
  case call => obtain ⟨_, _, _, _, -, -, -, -, rfl⟩ := h; rfl
  case jmp | ldi => obtain ⟨_, -, rfl⟩ := h; rfl
  case jeq | jne => obtain ⟨_, -, rfl⟩ := h; split <;> rfl
  case add | mul | cmp => obtain ⟨_, _, -, -, rfl⟩ := h; rfl

end Output

/-- Settles O39: the cycle is the fetched instruction's execution, and loading IR touches neither the output nor
a register. -/
theorem outputOnlyGrowsByPrn : Obligations.OutputOnlyGrowsByPrn := by
  refine ⟨resetWith_out, fun s t ir i hs hf ht => ?_⟩
  have hx : exec i (s.loadIr ir) = .next t := step_of_fetch hs hf ▸ ht
  constructor
  · rintro r hr rfl
    simpa using exec_prn_out hr hx
  · intro hi
    simpa using exec_out_of_not_prn hi hx

/-- Settles O1: reset clears FL and lists no cell, and an unlisted cell reads 0. -/
theorem resetClearsFlagsAndMemory : Obligations.ResetClearsFlagsAndMemory := by
  intro cfg draws
  simp only [resetWith_fl, resetWith_mem, Memory.read_nil, implies_true, and_self]

end Sys2Proof.Proofs

-- Memory access: what a store into an admitted cell leaves unchanged, and the two access functions.
namespace Sys2Proof.Proofs

open Sys2Proof Sys2Proof.Machine Sys2Proof.Claims

/-- The memory frame of a store (`20_memory.md` R43). -/
theorem storeCell_sameMemoryBut {s : State} (hm : s.mem.wf) (k : Nat) (v : Byte) :
    SameMemoryBut k s (s.storeCell k v) :=
  fun _ ha => Memory.read_write_other hm ha v

/-- Settles O28: the admitted cell is the one a read returns and a write stores into; a raise of Addr is the
access's own. -/
theorem memoryAccessMovesOneByte : Obligations.MemoryAccessMovesOneByte := by
  intro s a hm
  constructor
  · intro k hk
    refine ⟨memRead_ok.mpr ⟨k, hk, rfl⟩, fun v => ⟨s.storeCell k v, ?_, ?_, ?_, rfl⟩⟩
    · exact memWrite_ok.mpr ⟨k, hk, rfl⟩
    · exact Memory.read_write_same hm k v
    · exact storeCell_sameMemoryBut hm k v
  · intro f hf
    exact ⟨memRead_error.mpr hf, fun _ => memWrite_error.mpr hf⟩

end Sys2Proof.Proofs

-- Encoding: what the opcode byte's top two bits say, how many bytes are no opcode, and what executing one does.
namespace Sys2Proof.Proofs

open Sys2Proof Sys2Proof.Machine Sys2Proof.Claims

theorem mnemonic_operandCount_le_two (x : Mnemonic) : x.operandCount ≤ 2 := by
  cases x <;> decide

/-- No legal opcode claims 3 operands (`30_encoding.md` R60). -/
theorem operandCount_byte_le_two {m : OpcodeMap} (hm : m.wf) (x : Mnemonic) :
    operandCount (m.byte x) ≤ 2 :=
  OpcodeMap.operandCount_byte hm x ▸ mnemonic_operandCount_le_two x

/-- The opcode byte alone gives the length of the encoding (`30_encoding.md` R70). -/
theorem encode_length_of_byte {m : OpcodeMap} (hm : m.wf) (i : Instr) :
    (encode m i).length = 1 + operandCount (m.byte i.mnemonic) := by
  rw [encode_length, Instr.length, OpcodeMap.operandCount_byte hm]

/-- Settles O9: an opcode value's count is its instruction's, which is at most 2. -/
theorem topTwoBitsGiveTheLength : Obligations.TopTwoBitsGiveTheLength := by
  intro m hm
  refine ⟨fun b => ?_, fun i => ⟨encode_length_of_byte hm i, ?_⟩, fun x => ?_, ?_⟩
  · rw [operandCount_eq, Nat.shiftRight_eq_div_pow]
  · have hlen := encode_length_of_byte hm i
    have hle := operandCount_byte_le_two hm i.mnemonic
    simp only [List.mem_cons, List.not_mem_nil, or_false]
    omega
  · have hle := operandCount_byte_le_two hm x
    simp only [List.mem_cons, List.not_mem_nil, or_false]
    omega
  · rintro b hb x rfl
    have hle := operandCount_byte_le_two hm x
    omega

section IllegalBytes

variable {s : State}

/-- The illegal bytes are the complement of 13 distinct values (`30_encoding.md` R63, R68). -/
theorem card_illegalBytes {m : OpcodeMap} (hm : m.wf) :
    (Finset.univ.filter (fun n : Fin 256 => BitVec.ofFin n ∉ Mnemonic.all.map m.byte)).card = 243 := by
  have hnodup : ((Mnemonic.all.map m.byte).map BitVec.toFin).Nodup :=
    hm.1.map fun _ _ h => BitVec.eq_of_toFin_eq h
  have hcompl : Finset.univ.filter (fun n : Fin 256 => BitVec.ofFin n ∉ Mnemonic.all.map m.byte) =
      ((Mnemonic.all.map m.byte).map BitVec.toFin).toFinsetᶜ := by
    ext n
    simp [← BitVec.toFin_inj]
  rw [hcompl, Finset.card_compl, List.toFinset_card_of_nodup hnodup, Fintype.card_fin]
  simp [Mnemonic.all]

/-- Fault entry is all that a cycle does whose step raises (`60_exceptions.md` R157, R158). -/
theorem cycle_of_step_fault {f : Fault} (h : step s = .fault f) : cycle s = s.enterFault f := by
  simp only [cycle, h]

/-- A byte that is no opcode is refused by decode, before any operand byte is read (`60_exceptions.md` R159). -/
theorem step_of_illegal_byte {b : Byte} (hs : s.status = .running) (hb : memRead s (s.pc : Int) = .ok b)
    (hill : ∀ x, s.cfg.opcodes.byte x ≠ b) : step s = .fault (.illegalOpcode s.pc b) := by
  have hnone : mnemonicOf s.cfg.opcodes b = none :=
    mnemonicOf_none.mpr fun x hx => absurd hx (hill x)
  exact (step_fault hs).mpr (.inl (fetch_error.mpr (.inr ⟨b, hb, .inl ⟨hnone, rfl⟩⟩)))

end IllegalBytes

/-- Settles O8: the opcode values are 13 distinct bytes, and a step whose decode raises writes the status alone. -/
theorem illegalBytesNumber243AndFault : Obligations.IllegalBytesNumber243AndFault := by
  refine ⟨fun m => card_illegalBytes, fun x => ?_, fun s b hs hb hill => ?_⟩
  · cases x <;> decide
  · have hstep := step_of_illegal_byte hs hb hill
    exact ⟨hstep, cycle_of_step_fault hstep⟩

end Sys2Proof.Proofs

-- Dispatch: what fetch has read, which faults an instruction can raise, the default advance, and what ends the loop.
namespace Sys2Proof.Proofs

open Sys2Proof Sys2Proof.Machine Sys2Proof.Claims

section Fetch

variable {s t : State}

/-- Under `fault`, Addr lets only addresses inside memory through (`20_memory.md` R45). -/
theorem memRead_lt_of_fault (ho : s.cfg.oob = .fault) {n : Nat} {v : Byte} (h : memRead s (n : Int) = .ok v) :
    n < s.cfg.memSize := by
  obtain ⟨k, hk, -⟩ := memRead_ok.mp h
  rcases checkAddr_ok.mp hk with ⟨-, hnk, hlt⟩ | ⟨hw, -⟩
  · omega
  · simp [ho] at hw

theorem memRead_error_of_fault (ho : s.cfg.oob = .fault) {n : Nat} (h : s.cfg.memSize ≤ n) :
    memRead s (n : Int) = .error (.memOutOfBounds s.pc n) :=
  memRead_error.mpr (checkAddr_error.mpr ⟨ho, .inr (by omega), rfl⟩)

theorem memRead_ok_of_fault (ho : s.cfg.oob = .fault) {n : Nat} (h : n < s.cfg.memSize) :
    memRead s (n : Int) = .ok (s.mem.read n) :=
  memRead_ok.mpr ⟨n, checkAddr_ok.mpr (.inl ⟨ho, rfl, h⟩), rfl⟩

/-- `MemRead` under `wrap` reads the address mod N (`20_memory.md` R45). -/
theorem memRead_wrap (ho : s.cfg.oob = .wrap) {n : Nat} {v : Byte} (h : memRead s (n : Int) = .ok v) :
    v = s.mem.read (n % s.cfg.memSize) := by
  obtain ⟨k, hk, hv⟩ := memRead_ok.mp h
  rcases checkAddr_ok.mp hk with ⟨hf, -, -⟩ | ⟨-, rfl⟩
  · simp [ho] at hf
  · rw [← hv, ← Int.natCast_emod, Int.toNat_natCast]

/-- Decode accepts a byte only if its top two bits are the instruction's own count (log 15). -/
theorem fetch_operandCount {ir : Byte} {i : Instr} (h : fetch s = .ok (ir, i)) :
    operandCount ir = i.mnemonic.operandCount := by
  obtain ⟨-, hx, -⟩ := fetch_ok.mp h
  exact (mnemonicOf_some hx).2

theorem fetch_operands_length {ir : Byte} {i : Instr} (h : fetch s = .ok (ir, i)) :
    i.operands.length = operandCount ir := by
  rw [Instr.operands_length, fetch_operandCount h]

theorem fetch_operand {ir : Byte} {i : Instr} (h : fetch s = .ok (ir, i)) {k : Nat}
    (hk : k < i.operands.length) : memRead s ((s.pc + 1 + k : Nat) : Int) = .ok i.operands[k] := by
  obtain ⟨-, -, hops⟩ := fetch_ok.mp h
  have haddr : ((s.pc + 1 + k : Nat) : Int) = (s.pc : Int) + (k + 1 : Nat) := by omega
  rw [haddr]
  exact hops k _ (List.getElem?_eq_getElem hk)

/-- Under `fault` a fetched instruction lies inside memory whole: its last byte has been read. -/
theorem fetch_last_byte_lt (ho : s.cfg.oob = .fault) {ir : Byte} {i : Instr} (h : fetch s = .ok (ir, i)) :
    s.pc + operandCount ir < s.cfg.memSize := by
  rw [← fetch_operands_length h]
  rcases Nat.eq_zero_or_pos i.operands.length with h0 | hpos
  · obtain ⟨hop, -, -⟩ := fetch_ok.mp h
    simpa [h0] using memRead_lt_of_fault ho hop
  · have hlast := memRead_lt_of_fault ho (fetch_operand h (Nat.sub_lt hpos Nat.one_pos))
    omega

/-- A pc outside memory is caught by the opcode fetch, before anything else (`40_dispatch.md` R81). -/
theorem step_of_pc_outside (hs : s.status = .running) (ho : s.cfg.oob = .fault) (hpc : s.cfg.memSize ≤ s.pc) :
    step s = .fault (.memOutOfBounds s.pc s.pc) :=
  (step_fault hs).mpr (.inl (fetch_error.mpr (.inl (memRead_error_of_fault ho hpc))))

/-- The operand bytes are read in ascending order, so the first one at N raises (`40_dispatch.md` R84). -/
theorem fetch_of_operand_outside (ho : s.cfg.oob = .fault) {ir : Byte} {x : Mnemonic} {k : Nat}
    (hop : memRead s (s.pc : Int) = .ok ir) (hx : mnemonicOf s.cfg.opcodes ir = some x) (hk : 1 ≤ k)
    (hkc : k ≤ operandCount ir) (hend : s.pc + k = s.cfg.memSize) :
    fetch s = .error (.memOutOfBounds s.pc ((s.pc : Int) + k)) := by
  have hle : operandCount ir ≤ 2 := (mnemonicOf_some hx).2 ▸ mnemonic_operandCount_le_two x
  have hraise := memRead_error_of_fault ho hend.ge
  refine fetch_error.mpr (.inr ⟨ir, hop, .inr ⟨⟨x, hx⟩, ?_⟩⟩)
  obtain rfl | rfl : k = 1 ∨ k = 2 := by omega
  · exact .inl ⟨hkc, hraise⟩
  · have hfirst := memRead_ok_of_fault ho (n := s.pc + 1) (by omega)
    exact .inr ⟨hkc, ⟨_, hfirst⟩, hraise⟩

/-- A completing cycle leaves in IR the byte it fetched at pc: no instruction writes IR (`10_state.md` R30). -/
theorem step_next_ir (hs : s.status = .running) (h : step s = .next t) :
    memRead s (s.pc : Int) = .ok t.ir := by
  obtain ⟨ir, i, hf, hx⟩ := (step_next hs).mp h
  obtain ⟨hop, -, -⟩ := fetch_ok.mp hf
  rw [hop, (exec_cfg_ir hx).2, State.loadIr_ir]

end Fetch

section Faults

variable {s : State} {f : Fault}

/-- The faults that `Reg`, `Addr` and `SPNew` raise, of the instruction at `pc`. -/
def RaisedByCheck (pc : Nat) (f : Fault) : Prop :=
  (∃ b, f = .regOutOfRange pc b) ∨ ∃ a, f = .memOutOfBounds pc a

theorem checkReg_raises {b : Byte} (h : checkReg s b = .error f) : RaisedByCheck s.pc f :=
  .inl ⟨b, (checkReg_error.mp h).2⟩

theorem checkAddr_raises {a : Int} (h : checkAddr s a = .error f) : RaisedByCheck s.pc f := by
  obtain ⟨-, -, hf⟩ := checkAddr_error.mp h
  exact .inr ⟨a, hf⟩

theorem spNew_raises {v : Int} (h : spNew s v = .error f) : RaisedByCheck s.pc f := by
  obtain ⟨-, -, hf⟩ := spNew_error.mp h
  exact .inr ⟨v, hf⟩

/-- An instruction raises through the three checks alone, so never IllegalOpcode (`60_exceptions.md` R151). -/
theorem exec_raises {i : Instr} (h : exec i s = .fault f) : RaisedByCheck s.pc f := by
  cases i <;> simp only [exec, execRet_fault, execPrn_fault, execPush_fault, execPop_fault, execCall_fault,
    execJmp_fault, execJeq_fault, execJne_fault, execLdi_fault, execAdd_fault, execMul_fault,
    execCmp_fault] at h
  case hlt => simp [execHlt] at h
  case prn | jmp | jeq | jne | ldi => exact checkReg_raises h
  case add | mul | cmp =>
    obtain h | ⟨-, h⟩ := h
    · exact checkReg_raises h
    · exact checkReg_raises h
  case ret =>
    obtain h | ⟨-, h⟩ := h
    · exact checkAddr_raises h
    · exact spNew_raises h
  case push =>
    obtain h | ⟨-, h | ⟨_, -, h⟩⟩ := h
    · exact checkReg_raises h
    · exact spNew_raises h
    · exact checkAddr_raises h
  case pop =>
    obtain h | ⟨_, -, h | ⟨_, -, h⟩⟩ := h
    · exact checkReg_raises h
    · exact checkAddr_raises h
    · exact spNew_raises h
  case call =>
    obtain h | ⟨-, h | ⟨-, h | ⟨_, -, h⟩⟩⟩ := h
    · exact checkReg_raises h
    · exact checkAddr_raises h
    · exact spNew_raises h
    · exact checkAddr_raises h

/-- IllegalOpcode is decode's own fault (`40_dispatch.md` R82): a cycle raises it only of a byte at pc that decode
refuses. -/
theorem mnemonicOf_of_step_illegal (hs : s.status = .running) {p : Nat} {b : Byte}
    (h : step s = .fault (.illegalOpcode p b)) : mnemonicOf s.cfg.opcodes b = none := by
  have hcheck : ∀ {q}, ¬ RaisedByCheck q (.illegalOpcode p b) := by simp [RaisedByCheck]
  obtain hf | ⟨ir, i, -, hx⟩ := (step_fault hs).mp h
  · obtain he | ⟨ir, -, ⟨hnone, he⟩ | ⟨-, ⟨-, he⟩ | ⟨-, -, he⟩⟩⟩ := fetch_error.mp hf
    · exact absurd (checkAddr_raises (memRead_error.mp he)) hcheck
    · injection he with _ hb
      exact hb ▸ hnone
    · exact absurd (checkAddr_raises (memRead_error.mp he)) hcheck
    · exact absurd (checkAddr_raises (memRead_error.mp he)) hcheck
  · exact absurd (exec_raises hx) hcheck

end Faults

section Completion

variable {s t : State} {i : Instr}

/-- The default advance is the last line of each instruction that gets it (`40_dispatch.md` R85). -/
theorem exec_pc_of_default_advance (hi : getsDefaultAdvance i.mnemonic = true) (h : exec i s = .next t) :
    t.pc = s.pcValue (s.pc + 1 + i.mnemonic.operandCount) := by
  cases i <;> simp only [exec, execPrn_next, execPush_next, execPop_next, execLdi_next, execAdd_next,
    execMul_next, execCmp_next] at h
  case hlt | ret | call | jmp | jeq | jne => simp [Instr.mnemonic, getsDefaultAdvance] at hi
  case prn | ldi => obtain ⟨_, -, rfl⟩ := h; rfl
  case push | pop => obtain ⟨_, _, _, -, -, -, rfl⟩ := h; rfl
  case add | mul | cmp => obtain ⟨_, _, -, -, rfl⟩ := h; rfl

/-- HLT is the only instruction that writes the status (`40_dispatch.md` R87). -/
theorem exec_status_of_not_hlt (hi : i.mnemonic ≠ .hlt) (h : exec i s = .next t) : t.status = s.status := by
  cases i <;> simp only [exec, execRet_next, execPrn_next, execPush_next, execPop_next, execCall_next,
    execJmp_next, execJeq_next, execJne_next, execLdi_next, execAdd_next, execMul_next, execCmp_next] at h
  case hlt => exact absurd rfl hi
  case ret => obtain ⟨_, _, -, -, rfl⟩ := h; rfl
  case push | pop => obtain ⟨_, _, _, -, -, -, rfl⟩ := h; rfl
  case call => obtain ⟨_, _, _, _, -, -, -, -, rfl⟩ := h; rfl
  case prn | jmp | ldi => obtain ⟨_, -, rfl⟩ := h; rfl
  case jeq | jne => obtain ⟨_, -, rfl⟩ := h; split <;> rfl
  case add | mul | cmp => obtain ⟨_, _, -, -, rfl⟩ := h; rfl

theorem exec_status_of_hlt (hi : i.mnemonic = .hlt) (h : exec i s = .next t) : t.status = .halted := by
  cases i <;> simp only [Instr.mnemonic, reduceCtorEq] at hi
  case hlt => rw [execHlt_next.mp h, State.halt_status]

theorem cycle_halted (hs : s.status = .halted) : cycle s = s := by
  simp only [cycle, step_halted hs]

/-- A halted CORE stays as it is (`10_state.md` R31). -/
theorem cycles_halted (hs : s.status = .halted) (n : Nat) : cycles n s = s := by
  induction n with
  | zero => rfl
  | succ n ih => rw [cycles, cycle_halted hs, ih]

end Completion

/-- Settles O7: opcode values are distinct, and a byte that is one of them is never refused by decode. -/
theorem opcodeByteSelectsTheInstruction : Obligations.OpcodeByteSelectsTheInstruction := by
  intro s b hcfg hs hb
  obtain ⟨-, -, hm⟩ := hcfg
  refine ⟨step_of_illegal_byte hs hb, ?_⟩
  rintro x rfl
  refine ⟨fun y => OpcodeMap.byte_injective hm, fun ir i hf => ?_, fun hill => ?_⟩
  · obtain ⟨hir, hx, -⟩ := fetch_ok.mp hf
    obtain rfl : s.cfg.opcodes.byte x = ir := Except.ok.inj (hb.symm.trans hir)
    exact ⟨rfl, OpcodeMap.byte_injective hm (mnemonicOf_some hx).1⟩
  · have hnone := mnemonicOf_of_step_illegal hs hill
    simp [mnemonicOf_byte hm] at hnone

/-- Settles O12: a fetch that passes has read each operand byte through Addr; one that reaches N raises there. -/
theorem operandFetchFollowsTheOpcode : Obligations.OperandFetchFollowsTheOpcode := by
  intro s hs
  constructor
  · intro ir i hf
    refine ⟨fetch_operands_length hf, step_of_fetch hs hf, fun k hk => ?_⟩
    have hread := fetch_operand hf hk
    exact ⟨by simpa using hread, fun ho => memRead_wrap ho hread⟩
  · intro ir x k ho hop hx hk hkc hend
    exact (step_fault hs).mpr (.inl (fetch_of_operand_outside ho hop hx hk hkc hend))

/-- Settles O13: the advance is past the last byte fetched, and that byte lies below N. -/
theorem defaultAdvanceMovesPastTheInstruction : Obligations.DefaultAdvanceMovesPastTheInstruction := by
  intro s t ir i hs hf hi ht
  have hx : exec i (s.loadIr ir) = .next t := step_of_fetch hs hf ▸ ht
  have hpc : t.pc = s.pcValue (s.pc + 1 + operandCount ir) := by
    rw [exec_pc_of_default_advance hi hx, fetch_operandCount hf, State.loadIr_pcValue, State.loadIr_pc]
  constructor
  · intro ho
    rw [hpc, State.pcValue_wrap s ho]
  · intro ho
    rw [State.pcValue_fault s ho] at hpc
    have hlast := fetch_last_byte_lt ho hf
    refine ⟨hpc, by omega, fun hN => ?_⟩
    have hcfg : t.cfg = s.cfg := (exec_cfg_ir hx).1
    have hnhlt : i.mnemonic ≠ .hlt := fun h => by simp [h, getsDefaultAdvance] at hi
    have hrun : t.status = .running := (exec_status_of_not_hlt hnhlt hx).trans hs
    exact step_of_pc_outside hrun (hcfg ▸ ho) (by rw [hcfg, hN])

/-- Settles O40: HLT alone writes the status, and a step of a halted CORE is the same state again. -/
theorem onlyHltEndsTheLoop : Obligations.OnlyHltEndsTheLoop := by
  intro s t ir i hs hf ht
  have hx : exec i (s.loadIr ir) = .next t := step_of_fetch hs hf ▸ ht
  constructor
  · intro hi
    have hhalt := exec_status_of_hlt hi hx
    exact ⟨hhalt, cycles_halted hhalt⟩
  · intro hi
    exact (exec_status_of_not_hlt hi hx).trans hs

/-- Settles O11: IR of the next state is the fetched byte, and a pc outside memory fails that fetch; the range
under `wrap` is the invariant's. -/
theorem fetchReadsTheByteAtPc : Obligations.FetchReadsTheByteAtPc := by
  intro s hs
  refine ⟨fun t => step_next_ir hs, step_of_pc_outside hs, fun ho hinv => ?_⟩
  simpa only [State.pcInRange, ho] using hinv.pc_range

end Sys2Proof.Proofs

-- ALU arithmetic: what a register write and then the default advance leave; ADD and MUL are two uses of it.
namespace Sys2Proof.Proofs

open Sys2Proof Sys2Proof.Machine Sys2Proof.Claims

section RegisterResult

variable (s : State)

/-- The claims' word for a pc update is what the model's pc update stores (`10_state.md` R25). -/
theorem pcValue_eq_pcAfter (n : Nat) : s.pcValue n = pcAfter s n := by
  cases ho : s.cfg.oob with
  | fault => simp [State.pcValue_fault s ho, pcAfter, ho]
  | wrap => simp [State.pcValue_wrap s ho, pcAfter, ho]

/-- The register frame of a register write (`00_scope.md` R10). -/
theorem writeReg_sameRegsBut (k : Fin 8) (v : Byte) : SameRegsBut [k] s (s.writeReg k v) := by
  intro j hj
  exact State.readReg_writeReg_other s (Ne.symm (List.ne_of_not_mem_cons hj)) v

/-- An ALU result written to a register is the exact one mod 256, whatever the register (`42_alu.md` R110). -/
theorem writeReg_ofNat_toNat (k : Fin 8) (n : Nat) :
    ((s.writeReg k (BitVec.ofNat 8 n)).readReg k).toNat = n % 256 := by
  rw [State.readReg_writeReg_same, BitVec.toNat_ofNat]

/-- Storing a number in a register and taking the default advance of a two-operand instruction: the whole effect
of ADD and of MUL, with the exact result as the number (`42_alu.md` R110, `40_dispatch.md` R85). -/
theorem writeReg_advance_effect (k : Fin 8) (n : Nat) {x : Mnemonic} (hx : x.operandCount = 2) {t : State}
    (ht : t = (s.writeReg k (BitVec.ofNat 8 n)).advance x) :
    (t.readReg k).toNat = n % 256 ∧ t.pc = pcAfter s (s.pc + 3) ∧ SameRegsBut [k] s t ∧ SameMemory s t ∧
      t.fl = s.fl ∧ t.status = s.status ∧ t.out = s.out ∧ SameParamsAndIr s t := by
  subst ht
  have hpc : ((s.writeReg k (BitVec.ofNat 8 n)).advance x).pc = pcAfter s (s.pc + 3) := by
    rw [State.advance_pc, hx, State.writeReg_pcValue, State.writeReg_pc, pcValue_eq_pcAfter]
  exact ⟨writeReg_ofNat_toNat s k n, hpc, writeReg_sameRegsBut s k _, fun _ => rfl, rfl, rfl, rfl, rfl, rfl⟩

end RegisterResult

/-- Settles O16: both operands pass `Reg`, so each instruction completes, and its effect is a register write of
the exact sum or product, then the default advance. -/
theorem addAndMulWrapModulo256 : Obligations.AddAndMulWrapModulo256 := by
  intro a b ha hb s
  have hra := checkReg_of_lt s ha
  have hrb := checkReg_of_lt s hb
  constructor
  · exact ⟨_, execAdd_next.mpr ⟨_, _, hra, hrb, rfl⟩, writeReg_advance_effect s _ _ rfl rfl⟩
  · exact ⟨_, execMul_next.mpr ⟨_, _, hra, hrb, rfl⟩, writeReg_advance_effect s _ _ rfl rfl⟩

end Sys2Proof.Proofs

-- Stopped states: each is a fixed point of the cycle, so of every run; only the host's reset leaves them.
namespace Sys2Proof.Proofs

open Sys2Proof Sys2Proof.Machine Sys2Proof.Claims

section Stopped

variable {s : State}

/-- Fault entry writes nothing but the status, so the recorded fault entered again is the same state. -/
theorem enterFault_of_faulted {f : Fault} (hs : s.status = .faulted f) : s.enterFault f = s := by
  rw [State.enterFault, ← hs]

/-- The step of a FAULTED state answers its recorded fault again, and entering that is no change (R157). -/
theorem cycle_faulted {f : Fault} (hs : s.status = .faulted f) : cycle s = s :=
  (cycle_of_step_fault (step_faulted hs)).trans (enterFault_of_faulted hs)

/-- No cycle changes a stopped state (`60_exceptions.md` R162). -/
theorem cycle_stopped (hs : s.status ≠ .running) : cycle s = s := by
  cases hst : s.status with
  | running => exact absurd hst hs
  | halted => exact cycle_halted hst
  | faulted f => exact cycle_faulted hst

/-- A state that one cycle keeps is kept by any number of cycles. -/
theorem cycles_of_cycle_eq (h : cycle s = s) (n : Nat) : cycles n s = s := by
  induction n with
  | zero => rfl
  | succ n ih => rw [cycles, h, ih]

end Stopped

@[simp] theorem hostReset_status (s : State) (draws : Vector Byte 7) : (s.hostReset draws).status = .running := rfl

/-- Settles O35: a stopped state is a fixed point of the cycle, and the reset starts the CORE from any state. -/
theorem stoppedCoreNeverChanges : Obligations.StoppedCoreNeverChanges :=
  ⟨fun _ n hs => cycles_of_cycle_eq (cycle_stopped hs) n, hostReset_status⟩

end Sys2Proof.Proofs

-- Round trip: the decoder and the encoder invert each other, on a byte list and on the bytes at the pc.
namespace Sys2Proof.Proofs

open Sys2Proof Sys2Proof.Machine Sys2Proof.Claims

section RoundTrip

variable {m : OpcodeMap} {bs rest : List Byte} {i : Instr}

/-- Every encoding begins with an opcode byte, so no instruction is empty (`30_encoding.md` R60). -/
theorem instr_length_pos (i : Instr) : 0 < i.length := by
  rw [Instr.length]
  omega

/-- An instruction's bytes after its opcode are its operand bytes (`30_encoding.md` R65). -/
theorem succ_lt_length_of_operand {k : Nat} {v : Byte} (h : i.operands[k]? = some v) : k + 1 < i.length := by
  obtain ⟨hk, -⟩ := List.getElem?_eq_some_iff.mp h
  rw [Instr.operands_length] at hk
  rw [Instr.length]
  omega

/-- What the decoder has read from a byte list: the opcode and the operand bytes, at ascending places. -/
theorem decode_reads (h : decode m bs = .ok (i, rest)) :
    bs[0]? = some (m.byte i.mnemonic) ∧ mnemonicOf m (m.byte i.mnemonic) = some i.mnemonic ∧
      ∀ k v, i.operands[k]? = some v → bs[k + 1]? = some v := by
  obtain ⟨⟨ir, hd⟩, -⟩ := decode_ok.mp h
  obtain ⟨hop, hx, hops⟩ := decodeFrom_ok.mp hd
  obtain rfl : m.byte i.mnemonic = ir := (mnemonicOf_some hx).1
  exact ⟨listByte_ok.mp hop, hx, fun k v hk => listByte_ok.mp (hops k v hk)⟩

/-- A byte list that decodes begins with the bytes that the decoder has read. -/
theorem encode_prefix_of_decode (h : decode m bs = .ok (i, rest)) : encode m i <+: bs := by
  obtain ⟨hop, -, hops⟩ := decode_reads h
  refine List.prefix_iff_getElem?.mpr fun k hk => ?_
  cases k with
  | zero => exact hop
  | succ k => exact hops k _ (List.getElem?_eq_getElem (Nat.lt_of_succ_lt_succ hk))

end RoundTrip

/-- Settles O4: the encoded opcode is taken for its own instruction, and the operand bytes stand where the decoder
reads them. -/
theorem decodeOfEncodeIsTheInstruction : Obligations.DecodeOfEncodeIsTheInstruction := by
  intro m hm i rest
  have hread : decodeFrom m .illegalOpcode (listByte (encode m i ++ rest)) = .ok (m.byte i.mnemonic, i) := by
    refine decodeFrom_ok.mpr ⟨listByte_ok.mpr rfl, mnemonicOf_byte hm i.mnemonic, fun k v hk => ?_⟩
    obtain ⟨hlt, -⟩ := List.getElem?_eq_some_iff.mp hk
    have hbyte : (i.operands ++ rest)[k]? = some v := (List.getElem?_append_left hlt).trans hk
    exact listByte_ok.mpr hbyte
  have hrest : rest = (encode m i ++ rest).drop i.length := by
    rw [← encode_length m i, List.drop_left]
  exact decode_ok.mpr ⟨⟨_, hread⟩, hrest⟩

/-- Settles O5: the decoded list begins with the encoding, and the decoder leaves what stands after it. -/
theorem decodedBytesAreTheEncoding : Obligations.DecodedBytesAreTheEncoding := by
  intro m bs rest i h
  obtain ⟨-, hrest⟩ := decode_ok.mp h
  have hsplit := List.prefix_iff_eq_append.mp (encode_prefix_of_decode h)
  rw [encode_length, ← hrest] at hsplit
  exact hsplit.symm

/-- Settles O6: each list is the encoding of its instruction, which decodes to it by O4. -/
theorem specWordsDecode : Obligations.SpecWordsDecode := by
  have h := fun i => decodeOfEncodeIsTheInstruction _ OpcodeMap.default_wf i []
  exact ⟨h .hlt, h (.push 3#8), h (.jeq 2#8), h (.ldi 0#8 8#8), h (.mul 0#8 1#8)⟩

/-- Settles O10: fetch reads from memory the bytes that decode has read from the list, so it answers the same
instruction. -/
theorem stepRunsTheDecodedInstruction : Obligations.StepRunsTheDecodedInstruction := by
  intro s bs rest i hs hd hmem
  obtain ⟨hop, hx, hops⟩ := decode_reads hd
  have hfetch : fetch s = .ok (s.cfg.opcodes.byte i.mnemonic, i) := by
    refine fetch_ok.mpr ⟨?_, hx, fun k v hk => ?_⟩
    · simpa using hmem 0 _ (instr_length_pos i) hop
    · exact hmem (k + 1) v (succ_lt_length_of_operand hk) (hops k v hk)
  exact step_of_fetch hs hfetch

end Sys2Proof.Proofs

-- What an instruction writes: registers, memory, FL and pc, each said once for all thirteen.
namespace Sys2Proof.Proofs

open Sys2Proof Sys2Proof.Machine Sys2Proof.Claims

section Writes

variable {s t : State} {i : Instr}

/-- The writes column of the register table (`10_state.md` R23). -/
theorem exec_readReg_of_not_written (h : exec i s = .next t) {j : Fin 8} (hj : j.val ∉ registersWritten i) :
    t.readReg j = s.readReg j := by
  cases i <;> simp only [exec, execHlt_next, execRet_next, execPrn_next, execPush_next, execPop_next,
    execCall_next, execJmp_next, execJeq_next, execJne_next, execLdi_next, execAdd_next, execMul_next,
    execCmp_next] at h <;> simp only [registersWritten, List.mem_cons, List.not_mem_nil, or_false, not_or] at hj
  case hlt => subst h; rfl
  case prn | jmp => obtain ⟨_, -, rfl⟩ := h; rfl
  case jeq | jne => obtain ⟨_, -, rfl⟩ := h; split <;> rfl
  case cmp => obtain ⟨_, _, -, -, rfl⟩ := h; rfl
  case ret =>
    obtain ⟨_, v, -, -, rfl⟩ := h
    exact State.readReg_setSp_other s (Fin.ne_of_val_ne (Ne.symm hj)) v
  case push =>
    obtain ⟨_, v, _, -, -, -, rfl⟩ := h
    exact State.readReg_setSp_other s (Fin.ne_of_val_ne (Ne.symm hj)) v
  case call =>
    obtain ⟨_, _, v, _, -, -, -, -, rfl⟩ := h
    exact State.readReg_setSp_other s (Fin.ne_of_val_ne (Ne.symm hj)) v
  case pop =>
    obtain ⟨hr, h7⟩ := hj
    obtain ⟨k, _, v, hk, -, -, rfl⟩ := h
    have hkj : k ≠ j := Fin.ne_of_val_ne (checkReg_ok.mp hk ▸ Ne.symm hr)
    calc ((s.writeReg k _).setSp v).readReg j
        = (s.writeReg k _).readReg j := State.readReg_setSp_other _ (Fin.ne_of_val_ne (Ne.symm h7)) v
      _ = s.readReg j := State.readReg_writeReg_other s hkj _
  case ldi =>
    obtain ⟨k, hk, rfl⟩ := h
    exact State.readReg_writeReg_other s (Fin.ne_of_val_ne (checkReg_ok.mp hk ▸ Ne.symm hj)) _
  case add | mul =>
    obtain ⟨k, _, hk, -, rfl⟩ := h
    exact State.readReg_writeReg_other s (Fin.ne_of_val_ne (checkReg_ok.mp hk ▸ Ne.symm hj)) _

/-- The register frame in the claims' words: the registers of the writes column are among the listed ones. -/
theorem exec_sameRegsBut (h : exec i s = .next t) {ks : List (Fin 8)}
    (hks : ∀ j : Fin 8, j.val ∈ registersWritten i → j ∈ ks) : SameRegsBut ks s t :=
  fun j hj => exec_readReg_of_not_written h (mt (hks j) hj)

/-- PUSH and CALL alone write memory (`10_state.md` R29). -/
theorem exec_mem_of_not_push_call (hpush : i.mnemonic ≠ .push) (hcall : i.mnemonic ≠ .call)
    (h : exec i s = .next t) : t.mem = s.mem := by
  cases i <;> simp only [exec, execHlt_next, execRet_next, execPrn_next, execPop_next, execJmp_next, execJeq_next,
    execJne_next, execLdi_next, execAdd_next, execMul_next, execCmp_next] at h
  case push => exact absurd rfl hpush
  case call => exact absurd rfl hcall
  case hlt => subst h; rfl
  case ret => obtain ⟨_, _, -, -, rfl⟩ := h; rfl
  case pop => obtain ⟨_, _, _, -, -, -, rfl⟩ := h; rfl
  case prn | jmp | ldi => obtain ⟨_, -, rfl⟩ := h; rfl
  case jeq | jne => obtain ⟨_, -, rfl⟩ := h; split <;> rfl
  case add | mul | cmp => obtain ⟨_, _, -, -, rfl⟩ := h; rfl

/-- An instruction leaves memory as it was, or has written one byte, at the new SP (`20_memory.md` R42). -/
theorem exec_mem (h : exec i s = .next t) :
    t.mem = s.mem ∨ ∃ k v, checkAddr s (t.sp.toNat : Int) = .ok k ∧ t.mem = s.mem.write k v := by
  by_cases hpush : i.mnemonic = .push
  · cases i <;> simp only [Instr.mnemonic, reduceCtorEq] at hpush
    case push =>
      obtain ⟨_, v, k, -, -, hk, rfl⟩ := execPush_next.mp h
      exact .inr ⟨k, _, by simpa using hk, rfl⟩
  by_cases hcall : i.mnemonic = .call
  · cases i <;> simp only [Instr.mnemonic, reduceCtorEq] at hcall
    case call =>
      obtain ⟨_, _, v, k, -, -, -, hk, rfl⟩ := execCall_next.mp h
      exact .inr ⟨k, _, by simpa using hk, rfl⟩
  exact .inl (exec_mem_of_not_push_call hpush hcall h)

/-- CMP alone writes FL (`10_state.md` R26). -/
theorem exec_fl_of_not_cmp (hi : i.mnemonic ≠ .cmp) (h : exec i s = .next t) : t.fl = s.fl := by
  cases i <;> simp only [exec, execHlt_next, execRet_next, execPrn_next, execPush_next, execPop_next,
    execCall_next, execJmp_next, execJeq_next, execJne_next, execLdi_next, execAdd_next, execMul_next] at h
  case cmp => exact absurd rfl hi
  case hlt => subst h; rfl
  case ret => obtain ⟨_, _, -, -, rfl⟩ := h; rfl
  case push | pop => obtain ⟨_, _, _, -, -, -, rfl⟩ := h; rfl
  case call => obtain ⟨_, _, _, _, -, -, -, -, rfl⟩ := h; rfl
  case prn | jmp | ldi => obtain ⟨_, -, rfl⟩ := h; rfl
  case jeq | jne => obtain ⟨_, -, rfl⟩ := h; split <;> rfl
  case add | mul => obtain ⟨_, _, -, -, rfl⟩ := h; rfl

/-- CMP sets exactly one flag (`42_alu.md` R114). -/
theorem compareFlags_count (x y : Byte) : (compareFlags x y).count = 1 := by
  unfold compareFlags
  split
  · rfl
  · split <;> rfl

theorem exec_fl_count_of_cmp (hi : i.mnemonic = .cmp) (h : exec i s = .next t) : t.fl.count = 1 := by
  cases i <;> simp only [Instr.mnemonic, reduceCtorEq] at hi
  case cmp =>
    obtain ⟨_, _, -, -, rfl⟩ := execCmp_next.mp h
    exact compareFlags_count _ _

/-- Where pc can go: nowhere (HLT), past the instruction, or to one byte, a jump target or a return address
(`40_dispatch.md` R85, `44_control.md` R130). -/
theorem exec_pc (h : exec i s = .next t) :
    t.pc = s.pc ∨ t.pc = s.pcValue (s.pc + 1 + i.mnemonic.operandCount) ∨ ∃ b : Byte, t.pc = s.pcValue b.toNat := by
  by_cases hadv : getsDefaultAdvance i.mnemonic = true
  · exact .inr (.inl (exec_pc_of_default_advance hadv h))
  cases i <;> simp only [exec, execHlt_next, execRet_next, execCall_next, execJmp_next, execJeq_next,
    execJne_next] at h
  case prn | push | pop | ldi | add | mul | cmp => exact absurd rfl hadv
  case hlt => exact .inl (h ▸ rfl)
  case ret => obtain ⟨_, _, -, -, rfl⟩ := h; exact .inr (.inr ⟨_, rfl⟩)
  case call => obtain ⟨_, _, _, _, -, -, -, -, rfl⟩ := h; exact .inr (.inr ⟨_, rfl⟩)
  case jmp => obtain ⟨_, -, rfl⟩ := h; exact .inr (.inr ⟨_, rfl⟩)
  case jeq | jne =>
    obtain ⟨_, -, rfl⟩ := h
    split
    · exact .inr (.inr ⟨_, rfl⟩)
    · exact .inr (.inl rfl)

end Writes

/-- Settles O41: the register table's writes column, instruction by instruction. -/
theorem registersWrittenAreThoseOfTheTable : Obligations.RegistersWrittenAreThoseOfTheTable :=
  fun _ _ _ h _ hj => exec_readReg_of_not_written h hj

/-- Settles O38: the one cell an instruction can write is the cell that Addr names at the new SP. -/
theorem onlyPushAndCallWriteMemory : Obligations.OnlyPushAndCallWriteMemory := by
  intro i s t h
  refine ⟨fun hpush hcall => exec_mem_of_not_push_call hpush hcall h, fun hm k hk a ha => ?_⟩
  obtain hsame | ⟨k', v, hk', hwrite⟩ := exec_mem h
  · rw [hsame]
  · obtain rfl : k' = k := Except.ok.inj (hk'.symm.trans hk)
    rw [hwrite, Memory.read_write_other hm ha]

end Sys2Proof.Proofs

-- Invariant: it holds at the launch, every cycle keeps it, and canonical memories that read alike are equal.
namespace Sys2Proof.Proofs

open Sys2Proof Sys2Proof.Machine Sys2Proof.Claims

section Invariant

variable {s t : State}

theorem pcInRange_of_fault (ho : s.cfg.oob = .fault) (h : s.pc ≤ s.cfg.memSize ∨ s.pc < 256) : s.pcInRange := by
  simpa only [State.pcInRange, ho] using h

theorem pcInRange_of_wrap (ho : s.cfg.oob = .wrap) (h : s.pc < s.cfg.memSize) : s.pcInRange := by
  simpa only [State.pcInRange, ho] using h

/-- A pc update lands in range: mod N under `wrap`, and under `fault` wherever its target does (log 4). -/
theorem pcInRange_of_pcValue (hcfg : t.cfg = s.cfg) (hn : 1 ≤ s.cfg.memSize) {n : Nat} (hpc : t.pc = s.pcValue n)
    (hfault : s.cfg.oob = .fault → n ≤ s.cfg.memSize ∨ n < 256) : t.pcInRange := by
  cases ho : s.cfg.oob with
  | fault =>
    rw [State.pcValue_fault s ho] at hpc
    exact pcInRange_of_fault (hcfg ▸ ho) (by rw [hcfg, hpc]; exact hfault ho)
  | wrap =>
    rw [State.pcValue_wrap s ho] at hpc
    exact pcInRange_of_wrap (hcfg ▸ ho) (by rw [hcfg, hpc]; exact Nat.mod_lt _ hn)

/-- The pc of a completed cycle is in range: the bytes of the instruction it leaves were inside memory
(`10_state.md` R25). -/
theorem exec_keeps_pcInRange (hinv : s.Inv) {ir : Byte} {i : Instr}
    (hf : fetch s = .ok (ir, i)) (h : exec i (s.loadIr ir) = .next t) : t.pcInRange := by
  have hcfg : t.cfg = s.cfg := (exec_cfg_ir h).1
  obtain ⟨hn, -, -⟩ := hinv.cfg_wf
  obtain hpc | hpc | ⟨b, hpc⟩ := exec_pc h
  · rw [State.loadIr_pc] at hpc
    have hrange := hinv.pc_range
    simp only [State.pcInRange, hcfg, hpc] at hrange ⊢
    exact hrange
  · refine pcInRange_of_pcValue hcfg hn hpc fun ho => .inl ?_
    have hlast := fetch_last_byte_lt ho hf
    rw [fetch_operandCount hf] at hlast
    rw [State.loadIr_pc]
    omega
  · exact pcInRange_of_pcValue hcfg hn hpc fun _ => .inr b.isLt

/-- What an instruction can do to memory keeps it canonical and inside [0, N) (`20_memory.md` R41). -/
theorem exec_keeps_mem (hn : 1 ≤ s.cfg.memSize) (hm : s.mem.wf) (hin : ∀ c ∈ s.mem, c.1 < s.cfg.memSize)
    {i : Instr} (h : exec i s = .next t) : t.mem.wf ∧ ∀ c ∈ t.mem, c.1 < t.cfg.memSize := by
  rw [(exec_cfg_ir h).1]
  obtain hsame | ⟨k, v, hk, hwrite⟩ := exec_mem h
  · rw [hsame]
    exact ⟨hm, hin⟩
  · rw [hwrite]
    exact ⟨Memory.write_wf hm k v, Memory.write_inside hin (checkAddr_lt hn hk) v⟩

/-- At most one flag is 1 after any instruction (`42_alu.md` R114). -/
theorem exec_keeps_flags (hfl : s.fl.count ≤ 1) {i : Instr} (h : exec i s = .next t) : t.fl.count ≤ 1 := by
  by_cases hi : i.mnemonic = .cmp
  · exact (exec_fl_count_of_cmp hi h).le
  · rwa [exec_fl_of_not_cmp hi h]

/-- Fault entry writes the status alone, and the invariant does not speak of it. -/
theorem enterFault_keeps_inv (hinv : s.Inv) (f : Fault) : (s.enterFault f).Inv :=
  ⟨hinv.cfg_wf, hinv.mem_wf, hinv.mem_inside, hinv.pc_range, hinv.flags_exclusive⟩

end Invariant

/-- Settles O45: a running cycle is one instruction, and each part of the invariant is kept by what the instruction
can write; a stopped CORE answers its own state. -/
theorem stepKeepsTheInvariant : Obligations.StepKeepsTheInvariant := by
  intro s t hinv h
  cases hs : s.status with
  | running =>
    obtain ⟨ir, i, hf, hx⟩ := (step_next hs).mp h
    have hcfg : t.cfg = s.cfg := (exec_cfg_ir hx).1
    obtain ⟨hmwf, hmin⟩ := exec_keeps_mem (s := s.loadIr ir) hinv.cfg_wf.1 hinv.mem_wf hinv.mem_inside hx
    exact ⟨hcfg ▸ hinv.cfg_wf, hmwf, hmin, exec_keeps_pcInRange hinv hf hx,
      exec_keeps_flags (s := s.loadIr ir) hinv.flags_exclusive hx⟩
  | halted =>
    rw [step_halted hs] at h
    injection h with h
    exact h ▸ hinv
  | faulted f =>
    rw [step_faulted hs] at h
    simp at h

section Launch

variable {cfg : Config} (draws : Vector Byte 7)

theorem resetWith_inv (hcfg : cfg.wf) : (State.resetWith cfg draws).Inv where
  cfg_wf := hcfg
  mem_wf := ⟨List.Pairwise.nil, by simp⟩
  mem_inside := by simp
  pc_range := by
    cases ho : cfg.oob with
    | fault => exact pcInRange_of_fault ho (.inl (Nat.zero_le _))
    | wrap => exact pcInRange_of_wrap ho hcfg.1
  flags_exclusive := Nat.zero_le _

/-- Preload answers exactly the images that fit, and writes memory alone (`70_reset_and_hazards.md` R183). -/
theorem launch_ok {image : List Byte} {s : State} :
    launch cfg draws image = .ok s ↔ image.length ≤ cfg.memSize ∧
      s = { State.resetWith cfg draws with mem := Memory.writeList [] 0 image } := by
  have hcfg : (State.resetWith cfg draws).cfg = cfg := rfl
  simp only [launch, State.preload, hcfg, resetWith_mem]
  split <;> rename_i hlen <;> simp [hlen, @eq_comm _ s]

theorem launch_inv (hcfg : cfg.wf) {image : List Byte} {s : State} (h : launch cfg draws image = .ok s) :
    s.Inv := by
  obtain ⟨hlen, rfl⟩ := (launch_ok draws).mp h
  have hreset := resetWith_inv draws hcfg
  exact ⟨hcfg, Memory.writeList_wf hreset.mem_wf 0 image,
    Memory.writeList_inside hreset.mem_inside image (by rw [Nat.zero_add]; exact hlen), hreset.pc_range,
    hreset.flags_exclusive⟩

end Launch

section Cycle

/-- An instruction is a transaction, so it completes or raises (`60_exceptions.md` R158). -/
theorem exec_ne_refused (i : Instr) (s : State) (r : Refusal) : exec i s ≠ .refused r := by
  cases i
  case hlt => simp [exec, execHlt]
  all_goals exact complete_refused

theorem step_ne_refused (s : State) (r : Refusal) : step s ≠ .refused r := by
  cases hs : s.status with
  | running =>
    cases hf : fetch s with
    | ok p =>
      rw [step_of_fetch hs hf]
      exact exec_ne_refused _ _ _
    | error f =>
      rw [(step_fault hs).mpr (.inl hf)]
      exact nofun
  | halted =>
    rw [step_halted hs]
    exact nofun
  | faulted f =>
    rw [step_faulted hs]
    exact nofun

/-- Everything a cycle can do: the step's next state, or fault entry (`60_exceptions.md` R157). -/
theorem cycle_cases (s : State) : step s = .next (cycle s) ∨ ∃ f, cycle s = s.enterFault f := by
  cases h : step s with
  | next t => exact .inl (by simp only [cycle, h])
  | fault f => exact .inr ⟨f, cycle_of_step_fault h⟩
  | refused r => exact absurd h (step_ne_refused s r)

/-- What every cycle keeps, every run keeps. -/
theorem cycles_induction {P : State → Prop} (hcycle : ∀ s, P s → P (cycle s)) {s : State} (hs : P s) (n : Nat) :
    P (cycles n s) := by
  induction n generalizing s with
  | zero => exact hs
  | succ n ih => exact ih (hcycle s hs)

theorem cycle_keeps_inv {s : State} (hinv : s.Inv) : (cycle s).Inv := by
  obtain h | ⟨f, h⟩ := cycle_cases s
  · exact stepKeepsTheInvariant s _ hinv h
  · exact h ▸ enterFault_keeps_inv hinv f

/-- No cycle writes the parameters (`00_scope.md` R7). -/
theorem cycle_cfg (s : State) : (cycle s).cfg = s.cfg := by
  by_cases hs : s.status = .running
  · obtain h | ⟨f, h⟩ := cycle_cases s
    · obtain ⟨_, _, -, hx⟩ := (step_next hs).mp h
      exact (exec_cfg_ir hx).1
    · rw [h, State.enterFault_cfg]
  · rw [cycle_stopped hs]

end Cycle

/-- Settles O46: reset lists no cell, sets no flag, and puts pc at 0, which is below N. -/
theorem invariantHoldsAtReset : Obligations.InvariantHoldsAtReset :=
  ⟨resetWith_inv _ Config.default_wf, fun _ draws hcfg => resetWith_inv draws hcfg⟩

/-- Settles O47: the launch meets the invariant, and every cycle keeps it, fault entry included. -/
theorem everyReachableStateMeetsTheInvariant : Obligations.EveryReachableStateMeetsTheInvariant :=
  fun _ draws _ _ n hcfg h => cycles_induction (P := State.Inv) (fun _ => cycle_keeps_inv) (launch_inv draws hcfg h) n

/-- Settles O44: no cycle writes the parameters, so no run does. -/
theorem parametersNeverChange : Obligations.ParametersNeverChange :=
  fun s n => cycles_induction (P := fun t => t.cfg = s.cfg) (fun t ht => (cycle_cfg t).trans ht) rfl n

/-- Settles O32: every arm of exec completes or raises, and so does every cycle. -/
theorem nothingIsRefused : Obligations.NothingIsRefused :=
  ⟨exec_ne_refused, step_ne_refused⟩

section CanonicalMemory

variable {m m₁ m₂ : Memory}

/-- A cell that reads other than 0 is listed. -/
theorem mem_of_read {c : Host.Cell} (h : m.read c.1 = c.2) (hc : c.2 ≠ 0#8) : c ∈ m := by
  induction m with
  | nil => exact absurd h.symm hc
  | cons d m ih =>
    obtain ⟨b, w⟩ := d
    rw [Memory.read_list_cons] at h
    split at h
    · rename_i hb
      exact List.mem_cons.mpr (.inl (Prod.ext hb h.symm))
    · exact List.mem_cons_of_mem _ (ih h)

/-- A canonical memory lists exactly the cells that read other than 0. -/
theorem mem_iff_read (hm : m.wf) (c : Host.Cell) : c ∈ m ↔ m.read c.1 = c.2 ∧ c.2 ≠ 0#8 :=
  ⟨fun hc => ⟨Memory.read_of_mem hm hc, hm.2 c hc⟩, fun ⟨hread, hc⟩ => mem_of_read hread hc⟩

/-- Storing a list of bytes from address `a` on: byte k in cell `a + k`, every other cell as before. -/
theorem read_writeList (hm : m.wf) (a : Nat) (vs : List Byte) (b : Nat) :
    (m.writeList a vs).read b = if h : a ≤ b ∧ b - a < vs.length then vs[b - a]'h.2 else m.read b := by
  induction vs generalizing m a with
  | nil => simp [Memory.writeList]
  | cons v vs ih =>
    rw [Memory.writeList, ih (Memory.write_wf hm a v), Memory.read_write hm]
    by_cases hba : b = a
    · subst hba
      simp
    · by_cases hlt : a < b
      · have hsub : b - a = (b - (a + 1)) + 1 := by omega
        simp [hba, hsub, hlt.le, Nat.succ_le_of_lt hlt]
      · have hlow : ¬ a ≤ b := by omega
        have hlow' : ¬ a + 1 ≤ b := by omega
        simp [hba, hlow, hlow']

end CanonicalMemory

/-- Settles O48: both memories list the same cells, in rising order. -/
theorem memoriesThatReadAlikeAreEqual : Obligations.MemoriesThatReadAlikeAreEqual := by
  intro m₁ m₂ h₁ h₂ hread
  have hmem : ∀ c, c ∈ m₁ ↔ c ∈ m₂ := fun c => by rw [mem_iff_read h₁, mem_iff_read h₂, hread]
  have hnodup : ∀ {m : Memory}, m.wf → m.Nodup := fun hm =>
    hm.1.imp fun hlt heq => Nat.ne_of_lt hlt (congrArg Prod.fst heq)
  have hperm : m₁.Perm m₂ := (List.perm_ext_iff_of_nodup (hnodup h₁) (hnodup h₂)).mpr hmem
  exact hperm.eq_of_pairwise (fun _ _ _ _ hab hba => absurd hab (Nat.lt_asymm hba)) h₁.1 h₂.1

/-- Settles O3: preload stores the image's bytes from address 0 on, into a memory that lists nothing. -/
theorem launchPlacesTheImageAtZero : Obligations.LaunchPlacesTheImageAtZero := by
  intro cfg draws image
  have hnil : Memory.wf [] := ⟨List.Pairwise.nil, by simp⟩
  constructor
  · intro hlen
    refine ⟨_, (launch_ok draws).mpr ⟨hlen, rfl⟩, fun k hk => ?_, fun k hk => ?_, rfl⟩
    · rw [read_writeList hnil, dif_pos ⟨Nat.zero_le k, hk⟩]
      rfl
    · rw [read_writeList hnil, dif_neg (fun h => by omega), Memory.read_nil]
  · intro hlong
    have hcfg : (State.resetWith cfg draws).cfg = cfg := rfl
    rw [launch, State.preload, hcfg, if_neg (Nat.not_le.mpr hlong)]

end Sys2Proof.Proofs

-- Faults: which check of a cycle raises, of what, and what a faulting cycle leaves.
namespace Sys2Proof.Proofs

open Sys2Proof Sys2Proof.Machine Sys2Proof.Claims

section Checks

variable {s : State}

theorem checkAddr_inside (ho : s.cfg.oob = .fault) {a : Int} (h0 : 0 ≤ a) (hlt : a < s.cfg.memSize) :
    checkAddr s a = .ok a.toNat :=
  checkAddr_ok.mpr (.inl ⟨ho, by omega, by omega⟩)

theorem checkAddr_outside (ho : s.cfg.oob = .fault) {a : Int} (h : a < 0 ∨ (s.cfg.memSize : Int) ≤ a) :
    checkAddr s a = .error (.memOutOfBounds s.pc a) :=
  checkAddr_error.mpr ⟨ho, h, rfl⟩

theorem spNew_outside (ho : s.cfg.oob = .fault) {v : Int} (h : v < 0 ∨ (s.cfg.memSize : Int) ≤ v) :
    spNew s v = .error (.memOutOfBounds s.pc v) :=
  spNew_error.mpr ⟨ho, h, rfl⟩

/-- Under `wrap` `Addr` answers every address. -/
theorem checkAddr_ne_error_of_wrap (ho : s.cfg.oob = .wrap) (a : Int) (f : Fault) : checkAddr s a ≠ .error f :=
  fun h => by simp [(checkAddr_error.mp h).1] at ho

/-- Under `wrap` `SPNew` answers every value. -/
theorem spNew_ne_error_of_wrap (ho : s.cfg.oob = .wrap) (v : Int) (f : Fault) : spNew s v ≠ .error f :=
  fun h => by simp [(spNew_error.mp h).1] at ho

/-- `Reg` never raises MemOutOfBounds. -/
theorem checkReg_ne_memOutOfBounds (b : Byte) (p : Nat) (a : Int) : checkReg s b ≠ .error (.memOutOfBounds p a) :=
  fun h => by simp [checkReg_error] at h

/-- A byte as an integer is the byte again. -/
theorem ofInt_toNat_byte (b : Byte) : BitVec.ofInt 8 (b.toNat : Int) = b := by
  rw [BitVec.ofInt_natCast, BitVec.ofNat_toNat, BitVec.setWidth_eq]

end Checks

/-- Settles O26: under `fault` an address is answered or raised by its range; under `wrap` it is taken mod N. -/
theorem addressCheckFollowsThePolicy : Obligations.AddressCheckFollowsThePolicy := by
  intro s a
  refine ⟨fun ho => checkAddr_inside ho, fun ho => checkAddr_outside ho, fun ho hn => ?_⟩
  have hpos : 0 ≤ a % s.cfg.memSize := Int.emod_nonneg a (by omega)
  exact ⟨_, checkAddr_ok.mpr (.inr ⟨ho, rfl⟩), Int.toNat_of_nonneg hpos⟩

/-- Settles O27: under `fault` a new SP is answered or raised by its range, and one below N fits a byte; under `wrap`
it is taken mod 256. -/
theorem stackPointerCheckFollowsThePolicy : Obligations.StackPointerCheckFollowsThePolicy := by
  intro s v hcfg
  obtain ⟨-, hn, -⟩ := hcfg
  refine ⟨fun ho h0 hlt => ⟨_, spNew_ok.mpr (.inl ⟨ho, h0, hlt, rfl⟩), ?_⟩,
    fun ho => spNew_outside ho, fun ho => ⟨_, spNew_ok.mpr (.inr ⟨ho, rfl⟩), ?_⟩⟩
  · rw [BitVec.toNat_ofInt]
    omega
  · rw [BitVec.toNat_ofInt]
    omega

section RegisterOperands

variable {s : State} {b : Byte}

/-- One register operand: `Reg` raises of it. -/
theorem checkReg_of_find_one {r : Byte} (h : [r].find? (fun x => decide (8 ≤ x.toNat)) = some b) :
    checkReg s r = .error (.regOutOfRange s.pc b) := by
  simp only [List.find?_cons_eq_some, List.find?_nil, reduceCtorEq, and_false, or_false, decide_eq_true_eq] at h
  obtain ⟨hr, rfl⟩ := h
  exact checkReg_error.mpr ⟨hr, rfl⟩

/-- Two register operands: `Reg` raises of the first that does not exist (`60_exceptions.md` R160). -/
theorem checkReg_of_find_two {x y : Byte} (h : [x, y].find? (fun x => decide (8 ≤ x.toNat)) = some b) :
    checkReg s x = .error (.regOutOfRange s.pc b) ∨
      (∃ k, checkReg s x = .ok k) ∧ checkReg s y = .error (.regOutOfRange s.pc b) := by
  obtain ⟨hx, rfl⟩ | ⟨hx, hy⟩ := List.find?_cons_eq_some.mp h
  · exact .inl (checkReg_error.mpr ⟨of_decide_eq_true hx, rfl⟩)
  · have hlt : x.toNat < 8 := by simpa using hx
    exact .inr ⟨⟨_, checkReg_of_lt s hlt⟩, checkReg_of_find_one hy⟩

/-- A register operand of 8 or more raises before anything else an instruction checks (`60_exceptions.md` R152). -/
theorem exec_of_bad_register {i : Instr}
    (h : i.registerOperands.find? (fun x => decide (8 ≤ x.toNat)) = some b) :
    exec i s = .fault (.regOutOfRange s.pc b) := by
  cases i
  case hlt | ret => simp [Instr.registerOperands] at h
  case prn => exact execPrn_fault.mpr (checkReg_of_find_one h)
  case push => exact execPush_fault.mpr (.inl (checkReg_of_find_one h))
  case pop => exact execPop_fault.mpr (.inl (checkReg_of_find_one h))
  case call => exact execCall_fault.mpr (.inl (checkReg_of_find_one h))
  case jmp => exact execJmp_fault.mpr (checkReg_of_find_one h)
  case jeq => exact execJeq_fault.mpr (checkReg_of_find_one h)
  case jne => exact execJne_fault.mpr (checkReg_of_find_one h)
  case ldi => exact execLdi_fault.mpr (checkReg_of_find_one h)
  case add => exact execAdd_fault.mpr (checkReg_of_find_two h)
  case mul => exact execMul_fault.mpr (checkReg_of_find_two h)
  case cmp => exact execCmp_fault.mpr (checkReg_of_find_two h)

end RegisterOperands

/-- Settles O25: the register check is the first line of every instruction that has a register operand. -/
theorem badRegisterOperandFaults : Obligations.BadRegisterOperandFaults :=
  fun _ _ _ h => exec_of_bad_register h

section StackFaults

variable {s : State}

/-- PUSH raises what its SP decrement raises (`43_stack.md` R122). -/
theorem push_of_spNew_error {r : Byte} (hr : registerExists r) {f : Fault}
    (h : spNew s ((s.sp.toNat : Int) - 1) = .error f) : exec (.push r) s = .fault f :=
  execPush_fault.mpr (.inr ⟨⟨_, checkReg_of_lt s hr⟩, .inl h⟩)

/-- CALL raises what its SP decrement raises, once the return address has passed (`44_control.md` R131). -/
theorem call_of_spNew_error {r : Byte} (hr : registerExists r) (ho : s.cfg.oob = .fault)
    (hpc : s.pc + 2 < s.cfg.memSize) {f : Fault} (h : spNew s ((s.sp.toNat : Int) - 1) = .error f) :
    exec (.call r) s = .fault f := by
  have hret := checkAddr_inside ho (a := (s.pc : Int) + 2) (by omega) (by omega)
  exact execCall_fault.mpr (.inr ⟨⟨_, checkReg_of_lt s hr⟩, .inr ⟨⟨_, hret⟩, .inl h⟩⟩)

/-- The SP that a pop increments, once its register has been loaded (D11). -/
theorem sp_writeReg_popBase {r : Byte} (hr : registerExists r) :
    (s.writeReg (regOf r hr) (s.mem.read s.sp.toNat)).sp.toNat = popBase r s := by
  have h7 : regOf r hr = 7 ↔ r.toNat = 7 := Fin.ext_iff
  rw [State.sp_writeReg, popBase]
  simp only [h7]
  split <;> rfl

end StackFaults

/-- Settles O29: SP - 1 is outside memory for SP = 0 and for SP above N, and CALL checks its return address first. -/
theorem pushAndCallFaultOutsideMemory : Obligations.PushAndCallFaultOutsideMemory := by
  intro r s hr ho
  have hzero : s.sp.toNat = 0 → spNew s ((s.sp.toNat : Int) - 1) = .error (.memOutOfBounds s.pc (-1)) := by
    intro h0
    rw [h0]
    exact spNew_outside ho (.inl (by omega))
  have hhigh : s.cfg.memSize < s.sp.toNat →
      spNew s ((s.sp.toNat : Int) - 1) = .error (.memOutOfBounds s.pc ((s.sp.toNat : Int) - 1)) :=
    fun h => spNew_outside ho (.inr (by omega))
  refine ⟨fun h => push_of_spNew_error hr (hzero h), fun h => push_of_spNew_error hr (hhigh h), fun hpc => ?_,
    fun hpc h => call_of_spNew_error hr ho hpc (hzero h), fun hpc h => call_of_spNew_error hr ho hpc (hhigh h)⟩
  have hret := checkAddr_outside ho (a := (s.pc : Int) + 2) (.inr (by omega))
  exact execCall_fault.mpr (.inr ⟨⟨_, checkReg_of_lt s hr⟩, .inl hret⟩)

/-- Settles O30: the address at SP is checked first; then SP + 1, for POP counted from what it has loaded into r7. -/
theorem popAndRetFaultOutsideMemory : Obligations.PopAndRetFaultOutsideMemory := by
  intro r s hr ho
  refine ⟨fun hsp => ?_, fun hsp hnew => ?_, fun hsp hnew => ?_⟩
  · have hread := checkAddr_outside ho (a := (s.sp.toNat : Int)) (.inr (by omega))
    exact ⟨execPop_fault.mpr (.inr ⟨_, checkReg_of_lt s hr, .inl hread⟩), execRet_fault.mpr (.inl hread)⟩
  · have hread := checkAddr_inside ho (a := (s.sp.toNat : Int)) (by omega) (by omega)
    refine execPop_fault.mpr (.inr ⟨_, checkReg_of_lt s hr, .inr ⟨_, hread, ?_⟩⟩)
    rw [Int.toNat_natCast, sp_writeReg_popBase hr]
    exact spNew_outside ho (.inr (by omega))
  · have hread := checkAddr_inside ho (a := (s.sp.toNat : Int)) (by omega) (by omega)
    exact execRet_fault.mpr (.inr ⟨⟨_, hread⟩, spNew_outside ho (.inr (by omega))⟩)

section CycleFaults

variable {s : State} {f : Fault}

/-- Under `wrap` every check of an instruction but `Reg` passes (`60_exceptions.md` R153). -/
theorem exec_ne_memOutOfBounds_of_wrap (ho : s.cfg.oob = .wrap) (i : Instr) (p : Nat) (a : Int) :
    exec i s ≠ .fault (.memOutOfBounds p a) := by
  have haddr := checkAddr_ne_error_of_wrap ho
  have hsp := spNew_ne_error_of_wrap ho
  have hreg := fun b => checkReg_ne_memOutOfBounds (s := s) b p a
  cases i <;> simp [exec, execHlt, execRet_fault, execPrn_fault, execPush_fault, execPop_fault, execCall_fault,
    execJmp_fault, execJeq_fault, execJne_fault, execLdi_fault, execAdd_fault, execMul_fault, execCmp_fault,
    haddr, hsp, hreg]

theorem fetch_ne_memOutOfBounds_of_wrap (ho : s.cfg.oob = .wrap) (p : Nat) (a : Int) :
    fetch s ≠ .error (.memOutOfBounds p a) := by
  simp [fetch_error, memRead_error, checkAddr_ne_error_of_wrap ho]

/-- Whatever a fetch raises, it raises at its pc (`60_exceptions.md` R151, R153). -/
theorem fetch_fault_pc (h : fetch s = .error f) : f.pc = s.pc := by
  obtain he | ⟨ir, -, ⟨-, rfl⟩ | ⟨-, ⟨-, he⟩ | ⟨-, -, he⟩⟩⟩ := fetch_error.mp h
  case inr.inl => rfl
  all_goals
    obtain ⟨-, -, rfl⟩ := checkAddr_error.mp (memRead_error.mp he)
    rfl

/-- Whatever an instruction raises, it raises at its own pc (`60_exceptions.md` R152, R153). -/
theorem exec_fault_pc {i : Instr} (h : exec i s = .fault f) : f.pc = s.pc := by
  obtain ⟨_, rfl⟩ | ⟨_, rfl⟩ := exec_raises h
  · rfl
  · rfl

end CycleFaults

/-- Settles O31: neither the fetch nor the instruction can raise MemOutOfBounds under `wrap`. -/
theorem wrapNeverRaisesMemOutOfBounds : Obligations.WrapNeverRaisesMemOutOfBounds := by
  intro s p a hs ho h
  obtain hf | ⟨ir, i, -, hx⟩ := (step_fault hs).mp h
  · exact fetch_ne_memOutOfBounds_of_wrap ho p a hf
  · exact exec_ne_memOutOfBounds_of_wrap (s := s.loadIr ir) ho i p a hx

/-- Settles O33: both halves of a cycle raise at the pc it began with, and fault entry writes the status alone. -/
theorem faultsArePrecise : Obligations.FaultsArePrecise := by
  intro s f hs h
  refine ⟨?_, cycle_of_step_fault h⟩
  obtain hf | ⟨ir, _, -, hx⟩ := (step_fault hs).mp h
  · exact fetch_fault_pc hf
  · exact exec_fault_pc (s := s.loadIr ir) hx

/-- An instruction has as many of the two operand bytes as its count says (`40_dispatch.md` R84). -/
theorem assemble_operands (x : Mnemonic) (a b : Byte) :
    (assemble x a b).operands = [a, b].take x.operandCount := by
  cases x <;> rfl

/-- Under `fault`, an instruction whose bytes lie inside memory is fetched whole (`40_dispatch.md` R84). -/
theorem fetch_inside {s : State} {x : Mnemonic} (ho : s.cfg.oob = .fault)
    (hx : mnemonicOf s.cfg.opcodes (s.mem.read s.pc) = some x) (hin : s.pc + x.operandCount < s.cfg.memSize) :
    fetch s = .ok (s.mem.read s.pc, assemble x (s.mem.read (s.pc + 1)) (s.mem.read (s.pc + 2))) := by
  refine fetch_ok.mpr ⟨memRead_ok_of_fault ho (by omega), by rwa [assemble_mnemonic], fun k v hk => ?_⟩
  have hlt := (List.getElem?_eq_some_iff.mp hk).1
  rw [Instr.operands_length, assemble_mnemonic] at hlt
  have hle := mnemonic_operandCount_le_two x
  have hv : s.mem.read (s.pc + (k + 1)) = v := by
    rw [assemble_operands, List.getElem?_take_of_lt hlt] at hk
    obtain rfl | rfl : k = 0 ∨ k = 1 := by omega
    · exact Option.some.inj hk
    · exact Option.some.inj hk
  rw [← Int.natCast_add, memRead_ok_of_fault ho (by omega), hv]

/-- Settles O34: the checks in the order of R159, each raising once those before it have passed. -/
theorem firstFailingCheckDecides : Obligations.FirstFailingCheckDecides := by
  intro s hs ho
  refine ⟨step_of_pc_outside hs ho, fun hpc hnone => ?_, fun x hpc hx => ⟨fun hc hend => ?_, fun hc hin hend => ?_,
    fun hin b hb => ?_⟩⟩
  · have hop := memRead_ok_of_fault ho hpc
    exact (step_fault hs).mpr (.inl (fetch_error.mpr (.inr ⟨_, hop, .inl ⟨hnone, rfl⟩⟩)))
  · have hcount : 1 ≤ operandCount (s.mem.read s.pc) := (mnemonicOf_some hx).2 ▸ hc
    have hop := memRead_ok_of_fault ho hpc
    exact (step_fault hs).mpr
      (.inl (fetch_of_operand_outside (k := 1) ho hop hx le_rfl hcount (by omega)))
  · have hcount : 2 ≤ operandCount (s.mem.read s.pc) := ((mnemonicOf_some hx).2.trans hc).ge
    have hop := memRead_ok_of_fault ho hpc
    exact (step_fault hs).mpr
      (.inl (fetch_of_operand_outside (k := 2) ho hop hx one_le_two hcount (by omega)))
  · rw [step_of_fetch hs (fetch_inside ho hx hin)]
    exact exec_of_bad_register hb

/-- Settles O36: the code of each status, fault by fault. -/
theorem statusCodesAreDistinct : Obligations.StatusCodesAreDistinct := by
  refine ⟨rfl, rfl, fun _ _ => rfl, fun _ _ => rfl, fun _ _ => rfl, fun x => ?_⟩
  cases x with
  | running => exact nofun
  | halted => decide
  | faulted f => cases f <;> simp [Status.code, Fault.code]

/-- Settles O2: r7 is the last register of the reset state, r0 to r6 the draws before it; the host's reset is the
reset of the machine's own parameters. -/
theorem resetSetsRegistersPcAndStatus : Obligations.ResetSetsRegistersPcAndStatus := by
  refine ⟨fun cfg draws => ⟨?_, fun k hk => ?_, rfl, rfl, rfl⟩, fun _ _ => rfl⟩
  · exact Vector.getElem_push_eq
  · exact Vector.getElem_push_lt hk

end Sys2Proof.Proofs

-- Completion: under which conditions each instruction answers a next state, its result and its frame.
namespace Sys2Proof.Proofs

open Sys2Proof Sys2Proof.Machine Sys2Proof.Claims

section RegisterNames

variable (s : State) {r : Byte} (hr : registerExists r)

/-- A register operand names the stack pointer exactly if its byte is 7 (`10_state.md` R22). -/
theorem seven_eq_regOf : 7 = regOf r hr ↔ r.toNat = 7 := by
  rw [Fin.ext_iff]
  exact eq_comm

/-- What a register operand reads after SP has been set: the new SP for r7 (D11), else the register as it was. -/
theorem readReg_regOf_setSp (v : Byte) :
    (s.setSp v).readReg (regOf r hr) = if r.toNat = 7 then v else s.readReg (regOf r hr) := by
  rw [State.readReg_setSp]
  exact if_congr (seven_eq_regOf hr) rfl rfl

/-- What SP is after a register operand has been written: the new value for r7, else SP as it was. -/
theorem sp_writeReg_regOf (v : Byte) :
    (s.writeReg (regOf r hr) v).sp = if r.toNat = 7 then v else s.sp := by
  rw [State.sp_writeReg]
  exact if_congr (eq_comm.trans (seven_eq_regOf hr)) rfl rfl

end RegisterNames

/-- Settles O14: LDI is a register write and the default advance. -/
theorem ldiLoadsTheImmediate : Obligations.LdiLoadsTheImmediate := by
  intro r i hr s
  refine ⟨_, execLdi_next.mpr ⟨_, checkReg_of_lt s hr, rfl⟩, ?_, ?_, ?_, fun _ => rfl, rfl, rfl, rfl, rfl, rfl⟩
  · exact State.readReg_writeReg_same s _ i
  · exact pcValue_eq_pcAfter s (s.pc + 3)
  · exact writeReg_sameRegsBut s _ i

/-- Settles O15: PRN is an append to the output and the default advance. -/
theorem prnAppendsTheRegister : Obligations.PrnAppendsTheRegister := by
  intro r hr s
  exact ⟨_, execPrn_next.mpr ⟨_, checkReg_of_lt s hr, rfl⟩, rfl, pcValue_eq_pcAfter s (s.pc + 2),
    fun _ _ => rfl, fun _ => rfl, rfl, rfl, rfl, rfl⟩

/-- The three flags are the three outcomes of the unsigned comparison (`42_alu.md` R113). -/
theorem compareFlags_iff (x y : Byte) :
    ((compareFlags x y).e = true ↔ x.toNat = y.toNat) ∧ ((compareFlags x y).l = true ↔ x.toNat < y.toNat) ∧
      ((compareFlags x y).g = true ↔ y.toNat < x.toNat) := by
  rcases lt_trichotomy x.toNat y.toNat with h | h | h
  · have hless : compareFlags x y = ⟨false, true, false⟩ := by rw [compareFlags, if_neg h.ne, if_pos h]
    simp [hless, h, h.ne, h.le]
  · have hequal : compareFlags x y = ⟨true, false, false⟩ := by rw [compareFlags, if_pos h]
    simp [hequal, h]
  · have hgreater : compareFlags x y = ⟨false, false, true⟩ := by
      rw [compareFlags, if_neg h.ne', if_neg h.not_gt]
    simp [hgreater, h, h.ne', h.le]

/-- Settles O17: CMP writes the three flags of the unsigned comparison and takes the default advance. -/
theorem cmpSetsExactlyOneFlag : Obligations.CmpSetsExactlyOneFlag := by
  intro a b ha hb s
  obtain ⟨he, hl, hg⟩ := compareFlags_iff (s.readReg (regOf a ha)) (s.readReg (regOf b hb))
  exact ⟨_, execCmp_next.mpr ⟨_, _, checkReg_of_lt s ha, checkReg_of_lt s hb, rfl⟩, he, hl, hg,
    compareFlags_count _ _, pcValue_eq_pcAfter s (s.pc + 3), fun _ _ => rfl, fun _ => rfl, rfl, rfl, rfl, rfl⟩

section StackChecks

variable {s : State}

/-- The cell of an address that is a natural number: mod N under `wrap`, as a pc update is (`20_memory.md` R45). -/
theorem checkAddr_natCast {n : Nat} (h : s.cfg.oob = .fault → n < s.cfg.memSize) :
    checkAddr s (n : Int) = .ok (pcAfter s n) := by
  cases ho : s.cfg.oob with
  | fault => exact checkAddr_ok.mpr (.inl ⟨ho, by simp [pcAfter, ho], by simpa [pcAfter, ho] using h ho⟩)
  | wrap => exact checkAddr_ok.mpr (.inr ⟨ho, by rw [pcAfter, if_pos ho, ← Int.natCast_emod, Int.toNat_natCast]⟩)

theorem eq_pcAfter_of_checkAddr {n k : Nat} (h : checkAddr s (n : Int) = .ok k) : k = pcAfter s n := by
  obtain ⟨ho, hnk, -⟩ | ⟨ho, rfl⟩ := checkAddr_ok.mp h
  · simp only [pcAfter, ho, reduceCtorEq, if_false]
    omega
  · rw [pcAfter, if_pos ho, ← Int.natCast_emod, Int.toNat_natCast]

/-- `SPNew` answers a value that is inside memory, and under `wrap` every value (`43_stack.md` R121). -/
theorem exists_spNew {v : Int} (h : s.cfg.oob = .fault → 0 ≤ v ∧ v < s.cfg.memSize) :
    ∃ b, spNew s v = .ok b := by
  cases ho : s.cfg.oob with
  | fault => exact ⟨_, spNew_ok.mpr (.inl ⟨ho, (h ho).1, (h ho).2, rfl⟩)⟩
  | wrap => exact ⟨_, spNew_ok.mpr (.inr ⟨ho, rfl⟩)⟩

/-- An SP that `SPNew` has answered is an address that `Addr` answers. -/
theorem exists_checkAddr_of_spNew {v : Int} {b : Byte} (h : spNew s v = .ok b) :
    ∃ k, checkAddr s (b.toNat : Int) = .ok k := by
  refine ⟨_, checkAddr_natCast fun ho => ?_⟩
  obtain ⟨-, h0, hlt, rfl⟩ | ⟨hw, -⟩ := spNew_ok.mp h
  · rw [BitVec.toNat_ofInt]
    omega
  · simp [ho] at hw

/-- Both checks of a push pass where a push fits: the new SP and the cell it names. -/
theorem exists_push_checks (h : PushFits s) :
    ∃ v k, spNew s ((s.sp.toNat : Int) - 1) = .ok v ∧ checkAddr s (v.toNat : Int) = .ok k := by
  obtain ⟨v, hv⟩ := exists_spNew (s := s) (v := (s.sp.toNat : Int) - 1) fun ho => by
    obtain ⟨hpos, hle⟩ := h ho
    omega
  obtain ⟨k, hk⟩ := exists_checkAddr_of_spNew hv
  exact ⟨v, k, hv, hk⟩

/-- A return address fits a byte: it is a cell's address, and N is at most 256 (`00_scope.md` R7). -/
theorem returnAddress_toNat (hcfg : s.cfg.wf) {a : Int} {ret : Nat} (h : checkAddr s a = .ok ret) :
    (BitVec.ofNat 8 ret).toNat = ret := by
  obtain ⟨hn, hle, -⟩ := hcfg
  have hlt := checkAddr_lt hn h
  rw [BitVec.toNat_ofNat]
  omega

end StackChecks

/-- Settles O18: PUSH sets SP, stores the register read after that in the cell SP names, and takes the default
advance. -/
theorem pushStoresBelowTheStackPointer : Obligations.PushStoresBelowTheStackPointer := by
  intro r hr s hm hfit
  obtain ⟨v, k, hv, hk⟩ := exists_push_checks hfit
  have hx := execPush_next.mpr ⟨_, v, k, checkReg_of_lt s hr, hv, hk, rfl⟩
  refine ⟨_, k, hx, ?_, ?_, ?_, ?_, ?_, ?_, rfl, rfl, rfl, rfl, rfl⟩
  · simpa using spNew_pred_toNat hv
  · simpa using hk
  · simp [Memory.read_write_same hm, readReg_regOf_setSp s hr v]
  · exact storeCell_sameMemoryBut hm k _
  · exact pcValue_eq_pcAfter s (s.pc + 2)
  · exact exec_sameRegsBut (i := .push r) hx (by simp [registersWritten, Fin.ext_iff])

/-- Settles O19: POP writes the register with the byte at SP, sets SP one above what it then is, and takes the default
advance. -/
theorem popLoadsFromTheStackPointer : Obligations.PopLoadsFromTheStackPointer := by
  intro r hr s hfit
  have hk := checkAddr_natCast (s := s) (n := s.sp.toNat) fun ho => (hfit ho).1
  obtain ⟨v, hv⟩ := exists_spNew (s := s)
      (v := ((s.writeReg (regOf r hr) (s.mem.read (pcAfter s s.sp.toNat))).sp.toNat : Int) + 1) fun ho => by
    have hcell : pcAfter s s.sp.toNat = s.sp.toNat := by simp [pcAfter, ho]
    rw [hcell, sp_writeReg_popBase hr]
    obtain ⟨-, hnew⟩ := hfit ho
    omega
  have hx := execPop_next.mpr ⟨_, _, v, checkReg_of_lt s hr, hk, hv, rfl⟩
  have hsp := spNew_succ_toNat hv
  rw [sp_writeReg_regOf s hr] at hsp
  refine ⟨_, _, hx, hk, fun h7 => ⟨?_, ?_⟩, fun h7 => ?_, ?_, ?_, fun _ => rfl, rfl, rfl, rfl, rfl, rfl⟩
  · simp [readReg_regOf_setSp _ hr, h7]
  · simpa [h7] using hsp
  · simpa [h7] using hsp
  · exact pcValue_eq_pcAfter s (s.pc + 2)
  · exact exec_sameRegsBut (i := .pop r) hx (by simp [registersWritten, Fin.ext_iff])

/-- Settles O20: CALL sets SP, stores the return address in the cell SP names, and jumps to the register read after
that. -/
theorem callPushesPcPlusTwoAndJumps : Obligations.CallPushesPcPlusTwoAndJumps := by
  intro r hr s hcfg hm hfit hpc
  obtain ⟨v, k, hv, hk⟩ := exists_push_checks hfit
  have hret : checkAddr s ((s.pc : Int) + 2) = .ok (pcAfter s (s.pc + 2)) := checkAddr_natCast hpc
  have hx := execCall_next.mpr ⟨_, _, v, k, checkReg_of_lt s hr, hret, hv, hk, rfl⟩
  refine ⟨_, k, hx, ?_, ?_, ?_, ?_, ?_, ?_, rfl, rfl, rfl, rfl, rfl⟩
  · simpa using spNew_pred_toNat hv
  · simpa using hk
  · rw [State.jump_mem, State.storeCell_mem, State.setSp_mem, Memory.read_write_same hm, returnAddress_toNat hcfg hret]
  · exact storeCell_sameMemoryBut hm k _
  · rw [State.jump_pc, State.storeCell_pcValue, State.setSp_pcValue, pcValue_eq_pcAfter]
    simp [← readReg_regOf_setSp s hr v]
  · exact exec_sameRegsBut (i := .call r) hx (by simp [registersWritten, Fin.ext_iff])

/-- Settles O21: RET sets SP one above, and jumps to the byte at the old SP. -/
theorem retPopsThePc : Obligations.RetPopsThePc := by
  intro s hfit
  have hk := checkAddr_natCast (s := s) (n := s.sp.toNat) fun ho => Nat.lt_of_succ_lt (hfit ho)
  obtain ⟨v, hv⟩ := exists_spNew (s := s) (v := (s.sp.toNat : Int) + 1) fun ho => by
    have hnew := hfit ho
    omega
  have hx := execRet_next.mpr ⟨_, v, hk, hv, rfl⟩
  refine ⟨_, _, hx, hk, ?_, ?_, ?_, fun _ => rfl, rfl, rfl, rfl, rfl, rfl⟩
  · exact pcValue_eq_pcAfter s _
  · simpa using spNew_succ_toNat hv
  · exact exec_sameRegsBut (i := .ret) hx (by simp [registersWritten, Fin.ext_iff])

section Jumps

variable (s : State) {r : Byte} (hr : registerExists r)

/-- JEQ is one jump, to the register's value or past itself (`44_control.md` R136). -/
theorem exec_jeq :
    exec (.jeq r) s = .next (s.jump (if s.fl.e = true then (s.readReg (regOf r hr)).toNat else s.pc + 2)) := by
  refine execJeq_next.mpr ⟨_, checkReg_of_lt s hr, ?_⟩
  split <;> rfl

/-- JNE is one jump, past itself or to the register's value (`44_control.md` R137). -/
theorem exec_jne :
    exec (.jne r) s = .next (s.jump (if s.fl.e = true then s.pc + 2 else (s.readReg (regOf r hr)).toNat)) := by
  refine execJne_next.mpr ⟨_, checkReg_of_lt s hr, ?_⟩
  cases s.fl.e <;> rfl

/-- A jump writes pc alone (`44_control.md` R130). -/
theorem jump_effect (n : Nat) :
    (s.jump n).pc = pcAfter s n ∧ SameRegsBut [] s (s.jump n) ∧ SameMemory s (s.jump n) ∧ (s.jump n).fl = s.fl ∧
      (s.jump n).status = s.status ∧ (s.jump n).out = s.out ∧ SameParamsAndIr s (s.jump n) :=
  ⟨pcValue_eq_pcAfter s n, fun _ _ => rfl, fun _ => rfl, rfl, rfl, rfl, rfl, rfl⟩

end Jumps

/-- Settles O22: JMP is a jump to the register's value. -/
theorem jmpGoesToTheRegister : Obligations.JmpGoesToTheRegister :=
  fun _ hr s => ⟨_, execJmp_next.mpr ⟨_, checkReg_of_lt s hr, rfl⟩, jump_effect s _⟩

/-- Settles O23: each is one jump, whose target FL.E chooses. -/
theorem jeqAndJneTestTheEqualFlag : Obligations.JeqAndJneTestTheEqualFlag :=
  fun _ hr s => ⟨⟨_, exec_jeq s hr, jump_effect s _⟩, ⟨_, exec_jne s hr, jump_effect s _⟩⟩

/-- Settles O24: HLT writes the status alone. -/
theorem hltHaltsInPlace : Obligations.HltHaltsInPlace :=
  fun s => ⟨s.halt, rfl, rfl, rfl, fun _ _ => rfl, fun _ => rfl, rfl, rfl, rfl, rfl⟩

end Sys2Proof.Proofs

-- Noninterference: what an instruction does not read has no effect on it. Two runs from states that differ there alone.
namespace Sys2Proof.Proofs

open Sys2Proof Sys2Proof.Machine Sys2Proof.Claims

section FaultReads

variable {s t : State}

theorem checkReg_congr (hpc : t.pc = s.pc) (b : Byte) : checkReg t b = checkReg s b := by
  simp only [checkReg, hpc]

theorem spNew_congr (hcfg : t.cfg = s.cfg) (hpc : t.pc = s.pc) (v : Int) : spNew t v = spNew s v := by
  simp only [spNew, hcfg, hpc]

/-- Whether and what an instruction raises depends on the parameters, pc, memory and, for the instructions that read
it, SP alone. -/
theorem exec_fault_congr {i : Instr} {e : Bool} (hcfg : t.cfg = s.cfg) (hpc : t.pc = s.pc) (hmem : t.mem = s.mem)
    (hsp : 7 ∈ registersRead e i → t.sp = s.sp) (f : Fault) : exec i t = .fault f ↔ exec i s = .fault f := by
  have haddr := checkAddr_congr hcfg hpc
  have hspn := spNew_congr hcfg hpc
  have hreg := checkReg_congr hpc
  cases i <;> simp only [exec, execRet_fault, execPrn_fault, execPush_fault, execPop_fault, execCall_fault,
    execJmp_fault, execJeq_fault, execJne_fault, execLdi_fault, execAdd_fault, execMul_fault, execCmp_fault,
    State.sp_writeReg, haddr, hspn, hreg, hmem, hpc]
  case hlt => simp [execHlt]
  case ret | push | pop | call => rw [hsp (by simp [registersRead])]

end FaultReads

section FlagsAndIr

variable {s t : State} {i : Instr}

/-- `s` with other flags and another IR. -/
def setFlagsIr (s : State) (f : Flags) (b : Byte) : State := (s.setFlags f).loadIr b

@[simp] theorem setFlagsIr_fl (f : Flags) (b : Byte) : (setFlagsIr s f b).fl = f := rfl

/-- An instruction other than CMP, for which E says the same if it reads it, does the same from other flags and
another IR, and carries them along (`10_state.md` R26, R30). -/
theorem exec_setFlagsIr_of_not_cmp {f : Flags} (hi : i.mnemonic ≠ .cmp)
    (he : f.e = s.fl.e ∨ (i.mnemonic ≠ .jeq ∧ i.mnemonic ≠ .jne)) (b : Byte) (h : exec i s = .next t) :
    exec i (setFlagsIr s f b) = .next (setFlagsIr t f b) := by
  cases i <;> simp only [exec, execHlt_next, execRet_next, execPrn_next, execPush_next, execPop_next,
    execCall_next, execJmp_next, execJeq_next, execJne_next, execLdi_next, execAdd_next, execMul_next] at h ⊢
  case cmp => exact absurd rfl hi
  case hlt => subst h; rfl
  case ret => obtain ⟨k, v, hk, hv, rfl⟩ := h; exact ⟨k, v, hk, hv, rfl⟩
  case prn | jmp | ldi => obtain ⟨k, hk, rfl⟩ := h; exact ⟨k, hk, rfl⟩
  case push => obtain ⟨ir, v, k, hr, hv, hk, rfl⟩ := h; exact ⟨ir, v, k, hr, hv, hk, rfl⟩
  case pop => obtain ⟨ir, k, v, hr, hk, hv, rfl⟩ := h; exact ⟨ir, k, v, hr, hk, hv, rfl⟩
  case call => obtain ⟨ir, ret, v, k, hr, hret, hv, hk, rfl⟩ := h; exact ⟨ir, ret, v, k, hr, hret, hv, hk, rfl⟩
  case add | mul => obtain ⟨ia, ib, ha, hb, rfl⟩ := h; exact ⟨ia, ib, ha, hb, rfl⟩
  case jeq | jne =>
    obtain ⟨k, hk, rfl⟩ := h
    have he : f.e = s.fl.e := by simpa [Instr.mnemonic] using he
    refine ⟨k, hk, ?_⟩
    rw [setFlagsIr_fl, he]
    split <;> rfl

/-- CMP overwrites the flags it began with. -/
theorem exec_setFlagsIr_of_cmp (hi : i.mnemonic = .cmp) (f : Flags) (b : Byte) (h : exec i s = .next t) :
    exec i (setFlagsIr s f b) = .next (t.loadIr b) := by
  cases i <;> simp only [Instr.mnemonic, reduceCtorEq] at hi
  case cmp =>
    obtain ⟨ia, ib, ha, hb, rfl⟩ := execCmp_next.mp h
    exact execCmp_next.mpr ⟨ia, ib, ha, hb, rfl⟩

/-- No instruction reads IR or writes it (`10_state.md` R30). -/
theorem exec_loadIr (b : Byte) (h : exec i s = .next t) : exec i (s.loadIr b) = .next (t.loadIr b) := by
  by_cases hi : i.mnemonic = .cmp
  · exact exec_setFlagsIr_of_cmp hi s.fl b h
  · have hfl : t.setFlags s.fl = t := by rw [← exec_fl_of_not_cmp hi h]; rfl
    have hx := exec_setFlagsIr_of_not_cmp (f := s.fl) hi (.inl rfl) b h
    rwa [setFlagsIr, setFlagsIr, hfl] at hx

theorem registerExists_of_checkReg {r : Byte} {k : Fin 8} (h : checkReg s r = .ok k) : registerExists r := by
  have hk := checkReg_ok.mp h
  omega

/-- A jump goes somewhere whatever the flags are, and writes nothing but pc. -/
theorem exec_setFlags_of_jump (hi : i.mnemonic = .jeq ∨ i.mnemonic = .jne) (f : Flags) (h : exec i s = .next t) :
    ∃ n m, t = s.jump n ∧ exec i (s.setFlags f) = .next ((s.setFlags f).jump m) := by
  cases i <;> simp only [Instr.mnemonic, reduceCtorEq, or_self] at hi
  case jeq r =>
    obtain ⟨k, hk, -⟩ := execJeq_next.mp h
    have hr : registerExists r := registerExists_of_checkReg hk
    exact ⟨_, _, Host.Outcome.next.inj (h.symm.trans (exec_jeq s hr)), exec_jeq _ hr⟩
  case jne r =>
    obtain ⟨k, hk, -⟩ := execJne_next.mp h
    have hr : registerExists r := registerExists_of_checkReg hk
    exact ⟨_, _, Host.Outcome.next.inj (h.symm.trans (exec_jne s hr)), exec_jne _ hr⟩

/-- The value IR had before a cycle has no effect on it: fetch does not read IR, and the cycle loads it. -/
theorem step_loadIr (hs : s.status = .running) (b : Byte) : step (s.loadIr b) = step s := by
  have hfetch : fetch (s.loadIr b) = fetch s := rfl
  simp only [step, State.loadIr_status, hs, hfetch]
  rfl

end FlagsAndIr

/-- Settles O37: CMP overwrites FL, a jump chooses its target by E alone, and every other instruction carries FL
along. -/
theorem flagsAreWrittenByCmpAndReadByJumps : Obligations.FlagsAreWrittenByCmpAndReadByJumps := by
  refine ⟨resetWith_fl, fun r hr s t => ⟨fun h => ?_, fun h => ?_⟩, fun i s f => ⟨fun x h => ?_, fun t h => ?_⟩⟩
  · rw [exec_jeq s hr] at h
    rw [← Host.Outcome.next.inj h, State.jump_pc, pcValue_eq_pcAfter]
  · rw [exec_jne s hr] at h
    rw [← Host.Outcome.next.inj h, State.jump_pc, pcValue_eq_pcAfter]
  · exact (exec_fault_congr (s := s) (t := s.setFlags f) (e := s.fl.e) rfl rfl rfl (fun _ => rfl) x).mpr h
  by_cases hcmp : i.mnemonic = .cmp
  · have hcount := exec_fl_count_of_cmp hcmp h
    have hir : t.loadIr s.ir = t := by rw [← (exec_cfg_ir h).2]; rfl
    have hx : exec i (s.setFlags f) = .next (t.loadIr s.ir) := exec_setFlagsIr_of_cmp hcmp f s.ir h
    rw [hir] at hx
    exact ⟨t, hx, rfl, rfl, rfl, rfl, rfl, fun _ => ⟨rfl, hcount⟩, fun hn => absurd hcmp hn,
      fun _ => rfl⟩
  have hfl := exec_fl_of_not_cmp hcmp h
  by_cases he : f.e = s.fl.e ∨ (i.mnemonic ≠ .jeq ∧ i.mnemonic ≠ .jne)
  · have hx : exec i (s.setFlags f) = .next (setFlagsIr t f s.ir) := exec_setFlagsIr_of_not_cmp hcmp he s.ir h
    exact ⟨_, hx, rfl, rfl, rfl, rfl, rfl, fun hc => absurd hc hcmp, fun _ => ⟨hfl, rfl⟩, fun _ => rfl⟩
  · have hjump : i.mnemonic = .jeq ∨ i.mnemonic = .jne := by tauto
    obtain ⟨n, m, rfl, hx⟩ := exec_setFlags_of_jump hjump f h
    exact ⟨_, hx, rfl, rfl, rfl, rfl, rfl, fun hc => absurd hc hcmp, fun _ => ⟨hfl, rfl⟩,
      fun hc => absurd hc he⟩

/-- Settles O43: IR is loaded from the fetched byte before the instruction runs, and no instruction reads it. -/
theorem instructionRegisterIsInternal : Obligations.InstructionRegisterIsInternal := by
  refine ⟨fun s hs => ⟨fun t => step_next_ir hs, step_loadIr hs⟩, fun i s b => ⟨fun f h => ?_, fun t h => ?_⟩⟩
  · exact (exec_fault_congr (s := s) (t := s.loadIr b) (e := s.fl.e) rfl rfl rfl (fun _ => rfl) f).mpr h
  · exact exec_loadIr b h

section UnreadRegister

variable {s t : State} {i : Instr} {j k : Fin 8}

/-- The later of two writes to one register stands. -/
theorem writeReg_writeReg_same (s : State) (k : Fin 8) (v w : Byte) :
    (s.writeReg k v).writeReg k w = s.writeReg k w := by
  simp only [State.writeReg, Vector.set_set]

/-- Writes to two registers commute. -/
theorem writeReg_comm (s : State) (h : j ≠ k) (v w : Byte) :
    (s.writeReg j v).writeReg k w = (s.writeReg k w).writeReg j v := by
  simp only [State.writeReg]
  rw [Vector.set_comm _ _ (Fin.val_ne_of_ne h)]

/-- Setting SP commutes with a write to another register. -/
theorem setSp_writeReg_comm (s : State) (h : j ≠ 7) (v w : Byte) :
    (s.writeReg j v).setSp w = (s.setSp w).writeReg j v :=
  writeReg_comm s h v w

theorem sp_writeReg_other (s : State) (h : j ≠ 7) (v : Byte) : (s.writeReg j v).sp = s.sp :=
  State.readReg_writeReg_other s h v

/-- A register whose number is not an operand's is not the one that operand names. -/
theorem ne_of_checkReg {r : Byte} (hk : checkReg s r = .ok k) (h : j.val ≠ r.toNat) : j ≠ k :=
  Fin.ne_of_val_ne (checkReg_ok.mp hk ▸ h)

section PerInstruction

variable {r : Byte} (v : Byte)

theorem execRet_writeReg (h7 : j ≠ 7) (h : execRet s = .next t) :
    execRet (s.writeReg j v) = .next (t.writeReg j v) := by
  obtain ⟨k, w, hk, hw, rfl⟩ := execRet_next.mp h
  refine execRet_next.mpr ⟨k, w, ?_, ?_, ?_⟩
  · rwa [sp_writeReg_other s h7]
  · rwa [sp_writeReg_other s h7]
  · rw [setSp_writeReg_comm s h7]
    rfl

theorem execPush_writeReg (h7 : j ≠ 7) (hjr : j.val ≠ r.toNat) (h : execPush r s = .next t) :
    execPush r (s.writeReg j v) = .next (t.writeReg j v) := by
  obtain ⟨ir, w, k, hr, hw, hk, rfl⟩ := execPush_next.mp h
  refine execPush_next.mpr ⟨ir, w, k, hr, ?_, hk, ?_⟩
  · rwa [sp_writeReg_other s h7]
  · rw [setSp_writeReg_comm s h7, State.readReg_writeReg_other _ (ne_of_checkReg hr hjr)]
    rfl

theorem execCall_writeReg (h7 : j ≠ 7) (hjr : j.val ≠ r.toNat) (h : execCall r s = .next t) :
    execCall r (s.writeReg j v) = .next (t.writeReg j v) := by
  obtain ⟨ir, ret, w, k, hr, hret, hw, hk, rfl⟩ := execCall_next.mp h
  refine execCall_next.mpr ⟨ir, ret, w, k, hr, hret, ?_, hk, ?_⟩
  · rwa [sp_writeReg_other s h7]
  · rw [setSp_writeReg_comm s h7, State.readReg_writeReg_other _ (ne_of_checkReg hr hjr)]
    rfl

theorem execPop_writeReg (h7 : j ≠ 7) (hjr : j.val ≠ r.toNat) (h : execPop r s = .next t) :
    execPop r (s.writeReg j v) = .next (t.writeReg j v) := by
  obtain ⟨ir, k, w, hr, hk, hw, rfl⟩ := execPop_next.mp h
  refine execPop_next.mpr ⟨ir, k, w, hr, ?_, ?_, ?_⟩
  · rwa [sp_writeReg_other s h7]
  · rwa [State.writeReg_mem, writeReg_comm s (ne_of_checkReg hr hjr), sp_writeReg_other _ h7]
  · rw [State.writeReg_mem, writeReg_comm s (ne_of_checkReg hr hjr), setSp_writeReg_comm _ h7]
    rfl

/-- POP overwrites the register it names before it reads SP again. -/
theorem execPop_writeReg_same (h7 : j ≠ 7) (hjr : j.val = r.toNat) (h : execPop r s = .next t) :
    execPop r (s.writeReg j v) = .next t := by
  obtain ⟨ir, k, w, hr, hk, hw, rfl⟩ := execPop_next.mp h
  obtain rfl : j = ir := Fin.ext (hjr.trans (checkReg_ok.mp hr))
  refine execPop_next.mpr ⟨j, k, w, hr, ?_, ?_, ?_⟩
  · rwa [sp_writeReg_other s h7]
  · rwa [State.writeReg_mem, writeReg_writeReg_same]
  · rw [State.writeReg_mem, writeReg_writeReg_same]

theorem execLdi_writeReg {x : Byte} (hjr : j.val ≠ r.toNat) (h : execLdi r x s = .next t) :
    execLdi r x (s.writeReg j v) = .next (t.writeReg j v) := by
  obtain ⟨k, hk, rfl⟩ := execLdi_next.mp h
  refine execLdi_next.mpr ⟨k, hk, ?_⟩
  rw [writeReg_comm s (ne_of_checkReg hk hjr)]
  rfl

/-- LDI overwrites the register it names. -/
theorem execLdi_writeReg_same {x : Byte} (hjr : j.val = r.toNat) (h : execLdi r x s = .next t) :
    execLdi r x (s.writeReg j v) = .next t := by
  obtain ⟨k, hk, rfl⟩ := execLdi_next.mp h
  obtain rfl : j = k := Fin.ext (hjr.trans (checkReg_ok.mp hk))
  exact execLdi_next.mpr ⟨j, hk, by rw [writeReg_writeReg_same]⟩

end PerInstruction

/-- What is left of the value `v` of a register `j` that instruction `i` has not read: `i`'s own result if `i` writes
the register, else `v`. -/
def withUnread (i : Instr) (j : Fin 8) (v : Byte) (t : State) : State :=
  if j.val ∈ registersWritten i then t else t.writeReg j v

theorem withUnread_of_written (h : j.val ∈ registersWritten i) (v : Byte) (t : State) : withUnread i j v t = t :=
  if_pos h

theorem withUnread_of_not_written (h : j.val ∉ registersWritten i) (v : Byte) (t : State) :
    withUnread i j v t = t.writeReg j v :=
  if_neg h

/-- An instruction does the same from another value of a register it does not read (`10_state.md` R23). -/
theorem exec_writeReg_unread (hj : j.val ∉ registersRead s.fl.e i) (v : Byte) (h : exec i s = .next t) :
    exec i (s.writeReg j v) = .next (withUnread i j v t) := by
  cases i <;> simp only [exec, execHlt_next, execPrn_next, execJmp_next, execJeq_next, execJne_next, execAdd_next,
    execMul_next, execCmp_next] at h ⊢ <;> simp only [registersRead, List.mem_cons, List.not_mem_nil, or_false,
    not_or] at hj
  case hlt => subst h; rfl
  case prn | jmp =>
    obtain ⟨k, hk, rfl⟩ := h
    refine ⟨k, hk, ?_⟩
    rw [State.readReg_writeReg_other s (ne_of_checkReg hk hj)]
    rfl
  case jeq | jne =>
    obtain ⟨k, hk, rfl⟩ := h
    refine ⟨k, hk, ?_⟩
    rw [State.writeReg_fl]
    split
    · rename_i he
      rw [State.readReg_writeReg_other s (ne_of_checkReg hk (by simp_all))]
      rfl
    · rfl
  case cmp =>
    obtain ⟨ha, hb⟩ := hj
    obtain ⟨ia, ib, hia, hib, rfl⟩ := h
    refine ⟨ia, ib, hia, hib, ?_⟩
    rw [State.readReg_writeReg_other s (ne_of_checkReg hia ha),
      State.readReg_writeReg_other s (ne_of_checkReg hib hb)]
    rfl
  case add | mul =>
    obtain ⟨ha, hb⟩ := hj
    obtain ⟨ia, ib, hia, hib, rfl⟩ := h
    refine ⟨ia, ib, hia, hib, ?_⟩
    rw [withUnread_of_not_written (by simpa [registersWritten] using ha),
      State.readReg_writeReg_other s (ne_of_checkReg hia ha), State.readReg_writeReg_other s (ne_of_checkReg hib hb),
      writeReg_comm s (ne_of_checkReg hia ha)]
    rfl
  case ret =>
    rw [withUnread_of_not_written (by simpa [registersWritten] using hj)]
    exact execRet_writeReg v (Fin.ne_of_val_ne hj) h
  case push =>
    rw [withUnread_of_not_written (by simpa [registersWritten] using hj.1)]
    exact execPush_writeReg v (Fin.ne_of_val_ne hj.1) hj.2 h
  case call =>
    rw [withUnread_of_not_written (by simpa [registersWritten] using hj.1)]
    exact execCall_writeReg v (Fin.ne_of_val_ne hj.1) hj.2 h
  case pop r =>
    by_cases hjr : j.val = r.toNat
    · rw [withUnread_of_written (by simp [registersWritten, hjr])]
      exact execPop_writeReg_same v (Fin.ne_of_val_ne hj) hjr h
    · rw [withUnread_of_not_written (by simpa [registersWritten] using ⟨hjr, hj⟩)]
      exact execPop_writeReg v (Fin.ne_of_val_ne hj) hjr h
  case ldi r x =>
    by_cases hjr : j.val = r.toNat
    · rw [withUnread_of_written (by simp [registersWritten, hjr])]
      exact execLdi_writeReg_same v hjr h
    · rw [withUnread_of_not_written (by simpa [registersWritten] using hjr)]
      exact execLdi_writeReg v hjr h

end UnreadRegister

/-- Settles O42: an unread register is overwritten, or carried along untouched. -/
theorem registersReadAreThoseOfTheTable : Obligations.RegistersReadAreThoseOfTheTable := by
  intro i s j v hj
  constructor
  · intro x h
    have hsp : 7 ∈ registersRead s.fl.e i → (s.writeReg j v).sp = s.sp := fun h7 =>
      sp_writeReg_other s (by rintro rfl; exact hj h7) v
    exact (exec_fault_congr (s := s) (t := s.writeReg j v) rfl rfl rfl hsp x).mpr h
  · intro t h
    refine ⟨_, exec_writeReg_unread hj v h, ?_⟩
    by_cases hw : j.val ∈ registersWritten i
    · rw [withUnread_of_written hw]
      exact ⟨rfl, rfl, rfl, rfl, rfl, fun _ _ => rfl, fun hn => absurd hw hn⟩
    · rw [withUnread_of_not_written hw]
      refine ⟨rfl, rfl, rfl, rfl, rfl, fun k hk => ?_, fun _ => State.readReg_writeReg_same t j v⟩
      have hkj : k ≠ j := hk.resolve_right hw
      exact State.readReg_writeReg_other t hkj.symm v

end Sys2Proof.Proofs

-- Two instructions in a row, and a stored byte that is fetched next.
namespace Sys2Proof.Proofs

open Sys2Proof Sys2Proof.Machine Sys2Proof.Claims

section StackPairs

variable {s t : State}

/-- What a pc update stores depends on the parameters alone. -/
theorem pcAfter_congr (h : t.cfg = s.cfg) (n : Nat) : pcAfter t n = pcAfter s n := by
  rw [pcAfter, pcAfter, h]

/-- A stored pc, given as a target again, is stored unchanged. -/
theorem pcAfter_pcAfter (s : State) (n : Nat) : pcAfter s (pcAfter s n) = pcAfter s n := by
  simp only [pcAfter]
  split
  · exact Nat.mod_mod n _
  · rfl

/-- An SP that has been decremented is incremented back, where the first SP is below N (`43_stack.md` R121). -/
theorem spNew_succ_of_pred {b v : Byte} (hb : s.cfg.oob = .fault → b.toNat < s.cfg.memSize)
    (h : spNew s ((b.toNat : Int) - 1) = .ok v) : spNew s ((v.toNat : Int) + 1) = .ok b := by
  have hv := spNew_pred_toNat h
  have hlt := b.isLt
  obtain ⟨ho, h0, -, -⟩ | ⟨ho, -⟩ := spNew_ok.mp h
  · have hback : (v.toNat : Int) + 1 = b.toNat := by omega
    have hin := hb ho
    rw [hback]
    exact spNew_ok.mpr (.inl ⟨ho, by omega, by omega, (ofInt_toNat_byte b).symm⟩)
  · have hback : ((v.toNat : Int) + 1) % 256 = b.toNat := by omega
    exact spNew_ok.mpr (.inr ⟨ho, by rw [hback, ofInt_toNat_byte]⟩)

end StackPairs

/-- Settles O49: PRN reads the register that LDI has written. -/
theorem ldiThenPrnOutputsTheImmediate : Obligations.LdiThenPrnOutputsTheImmediate := by
  intro r i s hr
  obtain ⟨t, ht, hval, -, -, -, -, -, hout, -⟩ := ldiLoadsTheImmediate r i hr s
  obtain ⟨u, hu, hemit, -⟩ := prnAppendsTheRegister r hr t
  exact ⟨t, u, ht, hu, by rw [hemit, hout, hval]⟩

/-- Settles O52: the jump finds E as CMP has set it, and the register as it was before. -/
theorem cmpThenConditionalJump : Obligations.CmpThenConditionalJump := by
  intro a b r ha hb hr s t h
  obtain ⟨t', ht', he, -, -, -, -, hregs, -, -, -, hcfg, -⟩ := cmpSetsExactlyOneFlag a b ha hb s
  obtain rfl : t' = t := Host.Outcome.next.inj (ht'.symm.trans h)
  obtain ⟨⟨u, hu, hupc, -⟩, ⟨w, hw, hwpc, -⟩⟩ := jeqAndJneTestTheEqualFlag r hr t'
  have hreg : t'.readReg (regOf r hr) = s.readReg (regOf r hr) := hregs _ List.not_mem_nil
  rw [BitVec.toNat_inj] at he
  rw [pcAfter_congr hcfg, hreg] at hupc hwpc
  simp only [he] at hupc hwpc
  exact ⟨⟨u, hu, hupc⟩, ⟨w, hw, hwpc⟩⟩

/-- Settles O50: POP reads the cell PUSH has stored into, and increments SP back. -/
theorem pushThenPopCopiesTheValue : Obligations.PushThenPopCopiesTheValue := by
  intro a b ha hb s t hm ha7 hb7 hsp h
  obtain ⟨ia, v, k, hia, hv, hk, ht⟩ := execPush_next.mp h
  obtain rfl : ia = regOf a ha := Fin.ext (checkReg_ok.mp hia).symm
  have hcfg : t.cfg = s.cfg := (exec_cfg_ir h).1
  have htsp : t.sp = v := by simp [ht]
  have hstored : t.mem.read k = s.readReg (regOf a ha) := by
    rw [ht, State.advance_mem, State.storeCell_mem, State.setSp_mem, Memory.read_write_same hm,
      readReg_regOf_setSp s ha, if_neg ha7]
  have hback := spNew_succ_of_pred (fun _ => hsp) hv
  refine ⟨_, execPop_next.mpr ⟨regOf b hb, k, s.sp, checkReg_of_lt _ hb, ?_, ?_, rfl⟩, by simp, ?_⟩
  · rwa [htsp, checkAddr_ok_congr hcfg]
  · rwa [sp_writeReg_regOf _ hb, if_neg hb7, htsp, spNew_ok_congr hcfg]
  · rw [State.advance_readReg, readReg_regOf_setSp _ hb, if_neg hb7, State.readReg_writeReg_same]
    exact hstored

/-- Settles O51: RET reads the return address, which is below N and so what a pc update leaves unchanged, and
increments SP back. -/
theorem callThenRetResumesAfterTheCall : Obligations.CallThenRetResumesAfterTheCall := by
  intro r s t u hcfg hm hsp h hucfg husp hread
  obtain ⟨_, ret, v, k, -, hret, hv, hk, rfl⟩ := execCall_next.mp h
  have hu : u.cfg = s.cfg := hucfg
  have husp : u.sp = v := by simpa using husp
  have hcell : u.mem.read k = BitVec.ofNat 8 ret := by
    rw [hread k (by simpa using hk)]
    exact Memory.read_write_same hm k _
  have hku : checkAddr u (u.sp.toNat : Int) = .ok k := by rwa [husp, checkAddr_ok_congr hu]
  have hback : spNew u ((u.sp.toNat : Int) + 1) = .ok s.sp := by
    rw [husp, spNew_ok_congr hu]
    exact spNew_succ_of_pred hsp hv
  refine ⟨_, execRet_next.mpr ⟨k, s.sp, hku, hback, rfl⟩, ?_, by simp⟩
  have hpc : ret = pcAfter s (s.pc + 2) := eq_pcAfter_of_checkAddr hret
  rw [State.jump_pc, State.setSp_pcValue, hcell, returnAddress_toNat hcfg hret, hpc,
    pcValue_eq_pcAfter, pcAfter_congr hu, pcAfter_pcAfter]

section NextCycle

variable {s t : State}

/-- The byte at pc is the opcode that the next cycle runs, whatever it is (`40_dispatch.md` R81, R82). -/
theorem nextCycleRuns_of_memRead {b : Byte} (hcfg : s.cfg.wf) (hs : s.status = .running)
    (hb : memRead s (s.pc : Int) = .ok b) : NextCycleRuns b s := by
  obtain ⟨-, -, hm⟩ := hcfg
  refine ⟨hb, fun ir i hf => ?_, fun t ht => ?_, step_of_illegal_byte hs hb, ?_⟩
  · obtain ⟨hop, hx, -⟩ := fetch_ok.mp hf
    obtain rfl : b = ir := Except.ok.inj (hb.symm.trans hop)
    exact ⟨rfl, (mnemonicOf_some hx).1⟩
  · exact Except.ok.inj ((step_next_ir hs ht).symm.trans hb)
  · rintro rfl
    have hf : fetch s = .ok (s.cfg.opcodes.byte .hlt, .hlt) :=
      fetch_ok.mpr ⟨hb, mnemonicOf_byte hm .hlt, by simp [Instr.operands]⟩
    exact ⟨_, step_of_fetch hs hf, rfl, rfl⟩

/-- A byte that an instruction other than HLT leaves in the cell pc names is the opcode of the next cycle. -/
theorem nextCycleRuns_of_stored {i : Instr} {k : Nat} {b : Byte} (hcfg : s.cfg.wf) (hs : s.status = .running)
    (hi : i.mnemonic ≠ .hlt) (h : exec i s = .next t) (hpc : checkAddr t (t.pc : Int) = .ok k)
    (hb : t.mem.read k = b) : NextCycleRuns b t :=
  nextCycleRuns_of_memRead ((exec_cfg_ir h).1 ▸ hcfg) ((exec_status_of_not_hlt hi h).trans hs)
    (memRead_ok.mpr ⟨k, hpc, hb⟩)

/-- PUSH leaves its register's value, read after the decrement, in the cell that SP names (D11). -/
theorem read_of_push {r : Byte} (hr : registerExists r) {k : Nat} (hm : s.mem.wf)
    (h : exec (.push r) s = .next t) (hk : checkAddr t (t.sp.toNat : Int) = .ok k) :
    t.mem.read k = t.readReg (regOf r hr) := by
  obtain ⟨ir, v, k', hir, -, hk', ht⟩ := execPush_next.mp h
  obtain rfl : ir = regOf r hr := Fin.ext (checkReg_ok.mp hir).symm
  have htsp : t.sp = v := by simp [ht]
  rw [htsp, checkAddr_ok_congr (exec_cfg_ir h).1] at hk
  obtain rfl : k' = k := Except.ok.inj (hk'.symm.trans hk)
  rw [ht]
  exact Memory.read_write_same hm k' _

/-- CALL leaves the return address in the cell that SP names (`44_control.md` R131). -/
theorem read_of_call {r : Byte} {k : Nat} (hm : s.mem.wf) (h : exec (.call r) s = .next t)
    (hk : checkAddr t (t.sp.toNat : Int) = .ok k) : t.mem.read k = BitVec.ofNat 8 (pcAfter s (s.pc + 2)) := by
  obtain ⟨_, ret, v, k', -, hret, -, hk', ht⟩ := execCall_next.mp h
  have htsp : t.sp = v := by simp [ht]
  rw [htsp, checkAddr_ok_congr (exec_cfg_ir h).1] at hk
  obtain rfl : k' = k := Except.ok.inj (hk'.symm.trans hk)
  obtain rfl : ret = pcAfter s (s.pc + 2) := eq_pcAfter_of_checkAddr hret
  rw [ht]
  exact Memory.read_write_same hm k' _

end NextCycle

/-- Settles O53: pc names the cell that SP names, which is the one the instruction has stored into. -/
theorem storedByteIsFetchedNext : Obligations.StoredByteIsFetchedNext := by
  intro r hr s t k hcfg hm hs hsp hpc
  constructor
  · intro h
    refine ⟨fun h7 => ?_, nextCycleRuns_of_stored hcfg hs (by simp [Instr.mnemonic]) h hpc (read_of_push hr hm h hsp)⟩
    exact exec_readReg_of_not_written h (by simpa [registersWritten] using h7)
  · intro h
    exact nextCycleRuns_of_stored hcfg hs (by simp [Instr.mnemonic]) h hpc (read_of_call hm h hsp)

end Sys2Proof.Proofs
